-- ==== Sys2Proof/Syntax.lean ====
section
/-! DEFINITION. The instructions: one constructor for each of the thirteen rows of spec/opcode_table.json
(30_encoding.md R74, R80). -/

namespace Sys2Proof

/-- An instruction. An operand `n` or `k` is an address or a target 0 to 99 (30_encoding.md R77, R78). -/
inductive Instr where
  /-- READ `n`, opcode 10 (40_io.md R100) -/
  | read (n : Nat)
  /-- WRITE `n`, opcode 11 (40_io.md R102) -/
  | write (n : Nat)
  /-- LOAD `n`, opcode 20 (41_load_store.md R110) -/
  | load (n : Nat)
  /-- STORE `n`, opcode 21 (41_load_store.md R111) -/
  | store (n : Nat)
  /-- ADD `n`, opcode 30 (42_arithmetic.md R120) -/
  | add (n : Nat)
  /-- SUBTRACT `n`, opcode 31 (42_arithmetic.md R122) -/
  | subtract (n : Nat)
  /-- DIVIDE `n`, opcode 32 (42_arithmetic.md R124) -/
  | divide (n : Nat)
  /-- MULTIPLY `n`, opcode 33 (42_arithmetic.md R127) -/
  | multiply (n : Nat)
  /-- BRANCH `k`, opcode 40 (43_control_transfer.md R141) -/
  | branch (k : Nat)
  /-- BRANCHNEG `k`, opcode 41 (43_control_transfer.md R142) -/
  | branchneg (k : Nat)
  /-- BRANCHZERO `k`, opcode 42 (43_control_transfer.md R143) -/
  | branchzero (k : Nat)
  /-- HALT, opcode 43; the operand is decoded and ignored (43_control_transfer.md R146) -/
  | halt (n : Nat)
  /-- NOP, every other opcode, with its two decoded fields, both ignored (44_no_operation.md R160) -/
  | nop (opc opd : Int)
  deriving DecidableEq, Repr

end Sys2Proof
end

