-- ==== Sys2Proof/Word.lean ====
section
/-! DEFINITION. The Word of the machine and its bounds (00_scope.md R7, R8, R10, R12; 10_state.md R20).

A Word is "a signed integer constrained to the closed range [-9999, 9999]". The spec gives it no bits
(R12, 92_eei_decisions.md D2), so a Word is an `Int` that satisfies `inRange`; that every cell and the
accumulator hold Words is an invariant of the machine (10_state.md R41), not a type (log entry 3). -/

namespace Sys2Proof

/-- A machine Word: an integer; `inRange` says that it is one of the 19999 legal values (R8, R20). -/
abbrev Word := Int

/-- `WORD_MIN` (R8). -/
abbrev wordMin : Int := -9999

/-- `WORD_MAX` (R8). -/
abbrev wordMax : Int := 9999

/-- `MEM_SIZE`: addresses are 0 to 99, and 100 is the counter's terminal value (R7, 10_state.md R24). -/
abbrev memSize : Nat := 100

/-- `SENTINEL`, the Loader's end mark; never a Word (R10). -/
abbrev sentinel : Int := -99999

/-- `inRange(v)` of R15: `v` is a Word. Both bounds are legal (R8). -/
abbrev inRange (v : Int) : Prop := wordMin ≤ v ∧ v ≤ wordMax

end Sys2Proof
end

