-- ==== Sys2Proof/WellFormed.lean ====
section
/-! DEFINITION. Which instruction terms the encoding can express (30_encoding.md R70, R71, R73, R77). -/

namespace Sys2Proof

/-- The twelve recognised opcodes (30_encoding.md R74). -/
def recognisedOpcodes : List Int := [10, 11, 20, 21, 30, 31, 32, 33, 40, 41, 42, 43]

/-- An operand of a recognised instruction is one of 0 to 99, and each of these is legal (R73, R77). -/
def operandOk (n : Nat) : Bool := decide (n < memSize)

/-- The fields of a NOP: each in -99..99, never of opposite sign (R71), and the opcode none of the twelve (R160). -/
def nopFieldsOk (opc opd : Int) : Bool :=
  decide (-99 ≤ opc ∧ opc ≤ 99) && decide (-99 ≤ opd ∧ opd ≤ 99) &&
  decide ((0 ≤ opc ∧ 0 ≤ opd) ∨ (opc ≤ 0 ∧ opd ≤ 0)) && !recognisedOpcodes.contains opc

/-- An instruction that some Word encodes. -/
def Instr.wellFormed : Instr → Bool
  | .read n => operandOk n
  | .write n => operandOk n
  | .load n => operandOk n
  | .store n => operandOk n
  | .add n => operandOk n
  | .subtract n => operandOk n
  | .divide n => operandOk n
  | .multiply n => operandOk n
  | .branch k => operandOk k
  | .branchneg k => operandOk k
  | .branchzero k => operandOk k
  | .halt n => operandOk n
  | .nop opc opd => nopFieldsOk opc opd

end Sys2Proof
end

