-- ==== Sys2Proof/Decode.lean ====
section
/-! DEFINITION. Decoding and encoding (30_encoding.md R70 to R83; 00_scope.md R13). The format is decimal: the
Word is split by truncating division by 100. Every Word decodes; an integer that is no Word is rejected by name. -/

namespace Sys2Proof

/-- `sign(x)` of 00_scope.md R13: 1 for `x >= 0`, -1 for `x < 0`. -/
def signOf (x : Int) : Int := if 0 ≤ x then 1 else -1

/-- `tdiv(a, b)` of 00_scope.md R13: rounds toward zero. -/
def tdiv (a b : Int) : Int := signOf a * signOf b * ((a.natAbs / b.natAbs : Nat) : Int)

/-- `tmod(a, b)` of 00_scope.md R13: takes the sign of `a`, or is 0. -/
def tmod (a b : Int) : Int := a - b * tdiv a b

/-- Why a decoding is rejected. -/
inductive DecodeError where
  /-- the integer is outside [-9999, 9999]; no cell of a reachable machine holds one (log entry 11; safe) -/
  | notAWord (w : Int)
  deriving DecidableEq, Repr

/-- The dispatch of 30_encoding.md R74: one arm by the value of `opc` alone, and an explicit last arm for every
other opcode (44_no_operation.md R161). -/
def dispatch (opc opd : Int) : Instr :=
  if opc = 10 then .read opd.toNat
  else if opc = 11 then .write opd.toNat
  else if opc = 20 then .load opd.toNat
  else if opc = 21 then .store opd.toNat
  else if opc = 30 then .add opd.toNat
  else if opc = 31 then .subtract opd.toNat
  else if opc = 32 then .divide opd.toNat
  else if opc = 33 then .multiply opd.toNat
  else if opc = 40 then .branch opd.toNat
  else if opc = 41 then .branchneg opd.toNat
  else if opc = 42 then .branchzero opd.toNat
  else if opc = 43 then .halt opd.toNat
  else .nop opc opd

/-- The instruction a Word stands for (30_encoding.md R71, R74): total on Words, never a fault (R76). -/
def decode (w : Int) : Except DecodeError Instr :=
  if inRange w then .ok (dispatch (tdiv w 100) (tmod w 100)) else .error (.notAWord w)

/-- The opcode field of an instruction (30_encoding.md R74). -/
def Instr.opcode : Instr → Int
  | .read _ => 10
  | .write _ => 11
  | .load _ => 20
  | .store _ => 21
  | .add _ => 30
  | .subtract _ => 31
  | .divide _ => 32
  | .multiply _ => 33
  | .branch _ => 40
  | .branchneg _ => 41
  | .branchzero _ => 42
  | .halt _ => 43
  | .nop opc _ => opc

/-- The operand field of an instruction (30_encoding.md R70). -/
def Instr.operand : Instr → Int
  | .read n => n
  | .write n => n
  | .load n => n
  | .store n => n
  | .add n => n
  | .subtract n => n
  | .divide n => n
  | .multiply n => n
  | .branch k => k
  | .branchneg k => k
  | .branchzero k => k
  | .halt n => n
  | .nop _ opd => opd

/-- The Word of a well-formed instruction: `opc * 100 + opd` (30_encoding.md R82, R71). -/
def encode (i : Instr) : Int := i.opcode * 100 + i.operand

/-- What the decoder reads from the table's number `w`. The format is decimal and the table numbers no bits
(30_encoding.md R70, R80), so `w` is the Word itself and `nbits` says nothing (log entry 10). -/
def decodeTableWord (_nbits w : Nat) : Option Instr :=
  match decode (w : Int) with
  | .ok i => some i
  | .error _ => none

end Sys2Proof
end

