-- ==== Sys2Proof/Config.lean ====
section
/-! DEFINITION. The parameters the spec leaves open (00_scope.md R9, R11; 92_eei_decisions.md D6, D8, D11). -/

namespace Sys2Proof

/-- `CYCLE_MODE` (R9): what a taken branch does to the counter, and whether HALT ends the run. It is sampled at
reset and constant afterwards, so the machine's value of it stands in State. -/
inductive CycleMode where
  /-- the document's literal behaviour, the default and normative value -/
  | strictLegacy
  /-- the spec's own construction (D8, D9) -/
  | corrected
  deriving DecidableEq, Repr

/-- A non-zero integer, one form for each: `pos p` is `p + 1`, `neg p` is `-(p + 1)`. -/
inductive NonZero where
  | pos (pred : Nat)
  | neg (pred : Nat)
  deriving DecidableEq, Repr, Inhabited

/-- The integer a `NonZero` stands for. -/
def NonZero.toInt : NonZero → Int
  | .pos p => (p : Int) + 1
  | .neg p => -((p : Int) + 1)

/-- `CYCLE_MODE` as `State.reset` samples it: the spec's default and normative value (R9). -/
def Config.cycleMode : CycleMode := .strictLegacy

/-- DESIGN CHOICE (log entry 1): the accumulator's value in `State.reset`. The spec leaves ACC_RESET open, "any
Word" (10_state.md R23, D6); `State.resetWith` takes any value, and no statement rests on this one. -/
def Config.accReset : Int := 0

/-- `EXIT_FAIL`, the exit code of a run that ended in a fault: OPEN, any non-zero integer (R11, 10_state.md R32,
D11). A free value: it has no body, so nothing can be proved of it but that it is not zero (log entry 13). -/
opaque Config.exitFail : NonZero

end Sys2Proof
end

