-- ==== Sys2Proof/Machine/State.lean ====
section
/-! DEFINITION. The state of the machine as plain data (10_state.md R21 to R38), why a step can stop, and the state
after reset (10_state.md R42). INVENTORY.md lists each piece with its rule. -/

namespace Sys2Proof.Machine

/-- The three run-time faults (60_exceptions.md R170). -/
inductive FaultKind where
  /-- READ took an integer outside [-9999, 9999] (R171) -/
  | readRange
  /-- an exact result of ADD, SUBTRACT or MULTIPLY outside [-9999, 9999] (R172) -/
  | accRange
  /-- DIVIDE by a cell that holds 0 (R173) -/
  | divZero
  deriving DecidableEq, Repr

/-- The run status (10_state.md R30). -/
inductive Status where
  /-- after reset; the load port is open; no cycle runs -/
  | idle
  /-- cycles execute -/
  | running
  /-- the run ended without fault -/
  | stopped
  /-- a fault ended the run -/
  | faulted (kind : FaultKind)
  deriving DecidableEq, Repr

/-- Memory: a list of (address, Word) pairs in one canonical form, `Memory.wf`. The machine has no bytes
(20_memory.md R50, R53), so a cell holds a Word (log entry 3). -/
abbrev Memory := List (Nat × Int)

/-- What a cell that is not listed reads as: memory is "zero-initialized at process start" (10_state.md R21). -/
def Memory.unlisted : Int := 0

/-- Addresses strictly rising from `lo`, below 100, and no entry equal to what an unlisted cell reads as. -/
def Memory.wfFrom : Nat → Memory → Bool
  | _, [] => true
  | lo, (a, v) :: rest =>
    decide (lo ≤ a) && decide (a < memSize) && decide (v ≠ Memory.unlisted) && Memory.wfFrom (a + 1) rest

/-- The canonical form of memory: equal contents are equal data. -/
def Memory.wf (m : Memory) : Bool := Memory.wfFrom 0 m

/-- The snapshot HALT delivers: `(acc, ic, ir, opc, opd, M[0..99])` (10_state.md R37, 43_control_transfer.md R147). -/
structure Snapshot where
  acc : Int
  ic : Nat
  ir : Int
  opc : Int
  opd : Int
  mem : Memory
  deriving DecidableEq, Repr

/-- One entry of the combined trace of the output stream: an item of OUT, an item of DIAG, or a place where the
host's own text stands among them (10_state.md R36, R37; log entry 8). -/
inductive Event where
  /-- the Loader took one item, having prompted for the word of address `a` (70_reset_and_hazards.md R208) -/
  | asked (a : Nat)
  /-- the Validator rejected the item just taken (70_reset_and_hazards.md R210) -/
  | rejected
  /-- loading is complete and the host signals `start` (70_reset_and_hazards.md R213) -/
  | started
  /-- the prompt before the item a READ consumes (40_io.md R104) -/
  | readPrompt
  /-- a Word on OUT (40_io.md R102) -/
  | out (w : Int)
  /-- a snapshot on DIAG (43_control_transfer.md R146) -/
  | diag (snap : Snapshot)
  deriving DecidableEq, Repr

/-- The whole state: the engine's `(M, acc, ic, ir, opc, opd, status)` and `CYCLE_MODE` (10_state.md R38), the
input stream, the trace of what the run produced, and the host Loader's address (70_reset_and_hazards.md R209). -/
structure State where
  /-- `M[0..99]` (10_state.md R21) -/
  mem : Memory
  /-- the accumulator (10_state.md R22) -/
  acc : Int
  /-- `instructionCounter`, 0 to 100 (10_state.md R24) -/
  ic : Nat
  /-- `instructionRegister` (10_state.md R27) -/
  ir : Int
  /-- `operationCode` (10_state.md R28) -/
  opc : Int
  /-- `operand` (10_state.md R28) -/
  opd : Int
  /-- the run status (10_state.md R30) -/
  status : Status
  /-- `CYCLE_MODE`, sampled at reset (00_scope.md R9) -/
  cycleMode : CycleMode
  /-- the unread items of the input stream, head first; the channel IN while RUNNING (10_state.md R35) -/
  input : List Int
  /-- what has been produced, oldest first (10_state.md R36, R37) -/
  trace : List Event
  /-- the Loader's next address, 0 to 100 (70_reset_and_hazards.md R209) -/
  loadAddr : Nat
  deriving DecidableEq, Repr

/-- Stops that are the model's own. No state that a run from reset reaches raises one (10_state.md R41). -/
inductive Fault where
  /-- the fetch of a cycle with the counter outside 0..99 (10_state.md R24, D23); raised by every meaning and by
  `fetch`; safe (log entry 12) -/
  | fetchOutsideMemory (ic : Nat)
  /-- an operand outside 0..99, which no Word encodes (20_memory.md R51); raised by every meaning that uses its
  operand; safe (log entry 12) -/
  | addressOutsideMemory (a : Nat)
  /-- the fetched cell holds no Word (10_state.md R41); raised by `fetch`; safe (log entry 11) -/
  | cellNotAWord (w : Int)
  deriving DecidableEq, Repr

/-- Why an instruction is not executed at all. -/
inductive Refusal where
  /-- an arm of `exec` that has no meaning yet; raised by no arm now; safe -/
  | notModelled (mnemonic : String)
  deriving DecidableEq, Repr

/-- The state after reset with `CYCLE_MODE` sampled as `mode` and `ACC_RESET` = `accReset` (10_state.md R42). The
values of `ir`, `opc` and `opd` are unspecified there; 0 is a DESIGN CHOICE (log entry 2). -/
def State.resetWith (mode : CycleMode) (accReset : Int) : State where
  mem := []
  acc := accReset
  ic := 0
  ir := 0
  opc := 0
  opd := 0
  status := .idle
  cycleMode := mode
  input := []
  trace := []
  loadAddr := 0

/-- The machine right after reset (10_state.md R42). The accumulator's 0 is a DESIGN CHOICE (log entry 1). -/
def State.reset : State := State.resetWith Config.cycleMode Config.accReset

end Sys2Proof.Machine
end

