-- ==== Sys2Proof/Machine/Ops.lean ====
section
/-! DEFINITION. The named operations over memory and registers, the frame of a cycle (10_state.md R39), taking a
branch (43_control_transfer.md R140) and entering a fault (60_exceptions.md R174). The machine has no return from a
fault (60_exceptions.md R175): `FAULTED` is left only by reset. -/

namespace Sys2Proof.Machine

/-- What a step answers. -/
abbrev Result := Host.Outcome State Fault Refusal

/-! ### Memory (20_memory.md R51) -/

/-- `MemRead(a, 1)`: the Word `M[a]`. -/
def Memory.read : Memory → Nat → Int
  | [], _ => Memory.unlisted
  | (b, u) :: rest, a => if a = b then u else Memory.read rest a

/-- `MemWrite(a, 1, v)`: `M[a] <- v` and no other cell, keeping the canonical form. -/
def Memory.write : Memory → Nat → Int → Memory
  | [], a, v => if v = Memory.unlisted then [] else [(a, v)]
  | (b, u) :: rest, a, v =>
    if a < b then (if v = Memory.unlisted then (b, u) :: rest else (a, v) :: (b, u) :: rest)
    else if a = b then (if v = Memory.unlisted then rest else (a, v) :: rest)
    else (b, u) :: Memory.write rest a v

/-! ### Registers and channels -/

/-- `acc <- v` (10_state.md R22). -/
def State.setAcc (s : State) (v : Int) : State := { s with acc := v }

/-- `ic <- t` (10_state.md R24). -/
def State.setIc (s : State) (t : Nat) : State := { s with ic := t }

/-- `status <- st` (10_state.md R30, R31). -/
def State.setStatus (s : State) (st : Status) : State := { s with status := st }

/-- `M[a] <- v` (20_memory.md R51). -/
def State.setCell (s : State) (a : Nat) (v : Int) : State := { s with mem := s.mem.write a v }

/-- The input stream becomes `items` (10_state.md R35). -/
def State.setInput (s : State) (items : List Int) : State := { s with input := items }

/-- Append one event to the trace (10_state.md R36, R37: `Out(v)`, `Diag(s)`). -/
def State.emit (s : State) (e : Event) : State := { s with trace := s.trace ++ [e] }

/-- The Loader's `a <- a'` (70_reset_and_hazards.md R209). -/
def State.setLoadAddr (s : State) (a : Nat) : State := { s with loadAddr := a }

/-- The first three lines of the cycle: `ir <- w`, `opc <- tdiv(ir, 100)`, `opd <- tmod(ir, 100)` (10_state.md R39). -/
def State.latch (s : State) (w : Int) : State := { s with ir := w, opc := tdiv w 100, opd := tmod w 100 }

/-- The snapshot of the state (43_control_transfer.md R147). -/
def State.snapshot (s : State) : Snapshot :=
  { acc := s.acc, ic := s.ic, ir := s.ir, opc := s.opc, opd := s.opd, mem := s.mem }

/-- The items of OUT, oldest first (10_state.md R36). -/
def State.out (s : State) : List Int :=
  s.trace.filterMap fun e => match e with
    | .out w => some w
    | _ => none

/-- The items of DIAG, oldest first (10_state.md R37). -/
def State.diag (s : State) : List Snapshot :=
  s.trace.filterMap fun e => match e with
    | .diag snap => some snap
    | _ => none

/-! ### The cycle (10_state.md R39) -/

/-- The state after the fetch and the decode of a cycle. -/
def State.fetched (s : State) : State := s.latch (s.mem.read s.ic)

/-- Fetch and latch the Word at the counter, then run the arm. There is no fetch at 100 or above (D23). -/
def withFetched (s : State) (arm : State → Result) : Result :=
  if s.ic < memSize then arm s.fetched else .fault (.fetchOutsideMemory s.ic)

/-- `if ic == 100: status <- STOPPED` (10_state.md R26, R39). -/
def State.endTest (s : State) : State := if s.ic = memSize then s.setStatus .stopped else s

/-- The +1, then the end test (10_state.md R25, R39). -/
def State.advanced (s : State) : State := (s.setIc (s.ic + 1)).endTest

/-- The end of a cycle that advances. -/
def completeCycle (s : State) : Result := .next s.advanced

/-- `TakeBranch(k)` and the end of its cycle (43_control_transfer.md R140): in strict_legacy mode the +1 still
applies; in corrected mode it is skipped. -/
def takeBranch (k : Nat) (s : State) : Result :=
  match s.cycleMode with
  | .strictLegacy => completeCycle (s.setIc k)
  | .corrected => .next (s.setIc k).endTest

/-- `raise Fault(kind)`, the entry of every fault: `status <- FAULTED(kind)` and nothing else; the counter keeps the
address of the faulting instruction (60_exceptions.md R174). -/
def raiseFault (kind : FaultKind) (s : State) : Result := .next (s.setStatus (.faulted kind))

/-- The instruction the next cycle runs: the cell at the counter, decoded (10_state.md R39, 30_encoding.md R71). -/
def fetch (s : State) : Except Fault Instr :=
  if s.ic < memSize then
    match decode (s.mem.read s.ic) with
    | .ok i => .ok i
    | .error (.notAWord w) => .error (.cellNotAWord w)
  else .error (.fetchOutsideMemory s.ic)

end Sys2Proof.Machine
end

