-- ==== Sys2Proof/Machine/Flags.lean ====
section
/-! DEFINITION. The machine has no flags: the conditional branches test the accumulator itself, and a result out of
range is a fault (10_state.md R29; 42_arithmetic.md R128). These are the two tests, the range
check and the zero-divisor check. -/

namespace Sys2Proof.Machine

/-- `acc < 0`, the condition of BRANCHNEG (43_control_transfer.md R142). -/
def State.accNegative (s : State) : Bool := decide (s.acc < 0)

/-- `acc == 0`, the condition of BRANCHZERO (43_control_transfer.md R143). -/
def State.accZero (s : State) : Bool := decide (s.acc = 0)

/-- The end of ADD, SUBTRACT and MULTIPLY with exact result `r`: `acc <- r` if `r` is a Word, else AccRange with `acc`
not written (42_arithmetic.md R121). -/
def writeChecked (r : Int) (s : State) : Result :=
  if inRange r then completeCycle (s.setAcc r) else raiseFault .accRange s

/-- The end of DIVIDE with divisor `d`: DivZero for a zero divisor, whatever `acc` is, else `acc <- tdiv(acc, d)`, which
needs no range test (42_arithmetic.md R124, R125). -/
def writeQuotient (d : Int) (s : State) : Result :=
  if d = 0 then raiseFault .divZero s else completeCycle (s.setAcc (tdiv s.acc d))

end Sys2Proof.Machine
end

