-- ==== Sys2Proof/Machine/Operands.lean ====
section
/-! DEFINITION. The operand forms. There is one addressing mode, absolute direct: the operand field is the address or
the branch target, used as it is decoded (20_memory.md R52; 30_encoding.md R78; 41_load_store.md R112). An operand
outside 0..99, which no Word encodes, stops the model by name (20_memory.md R51; log entry 12). -/

namespace Sys2Proof.Machine

/-- Read the data operand `M[n]` and go on with it. -/
def withWord (n : Nat) (s : State) (use : Int → Result) : Result :=
  if n < memSize then use (s.mem.read n) else .fault (.addressOutsideMemory n)

/-- Write `M[n] <- v` and end the cycle. -/
def storeWord (n : Nat) (v : Int) (s : State) : Result :=
  if n < memSize then completeCycle (s.setCell n v) else .fault (.addressOutsideMemory n)

/-- Branch to the target `k` when `taken` holds, else end the cycle (43_control_transfer.md R140 to R143). -/
def branchIf (taken : Bool) (k : Nat) (s : State) : Result :=
  if k < memSize then (if taken then takeBranch k s else completeCycle s)
  else .fault (.addressOutsideMemory k)

end Sys2Proof.Machine
end

