-- ==== Sys2Proof/Machine/Arithmetic.lean ====
section
/-! DEFINITION. ADD, SUBTRACT, DIVIDE and MULTIPLY (42_arithmetic.md): exact arithmetic over the integers, the
accumulator on the left, then the range test (R128). -/

namespace Sys2Proof.Machine

/-- ADD `n` (42_arithmetic.md R120, R121). -/
def execAdd (n : Nat) (s : State) : Result :=
  withFetched s fun f => withWord n f fun v => writeChecked (f.acc + v) f

/-- SUBTRACT `n` (42_arithmetic.md R122, R121). -/
def execSubtract (n : Nat) (s : State) : Result :=
  withFetched s fun f => withWord n f fun v => writeChecked (f.acc - v) f

/-- DIVIDE `n` (42_arithmetic.md R124): DivZero for a zero divisor, else the quotient rounded toward zero. -/
def execDivide (n : Nat) (s : State) : Result :=
  withFetched s fun f => withWord n f fun d => writeQuotient d f

/-- MULTIPLY `n` (42_arithmetic.md R127, R121). -/
def execMultiply (n : Nat) (s : State) : Result :=
  withFetched s fun f => withWord n f fun v => writeChecked (f.acc * v) f

end Sys2Proof.Machine
end

