-- ==== Sys2Proof/Machine/Control.lean ====
section
/-! DEFINITION. BRANCH, BRANCHNEG, BRANCHZERO and HALT (43_control_transfer.md), and the NOP (44_no_operation.md). -/

namespace Sys2Proof.Machine

/-- BRANCH `k` (43_control_transfer.md R141). -/
def execBranch (k : Nat) (s : State) : Result :=
  withFetched s fun f => branchIf true k f

/-- BRANCHNEG `k` (43_control_transfer.md R142). -/
def execBranchneg (k : Nat) (s : State) : Result :=
  withFetched s fun f => branchIf f.accNegative k f

/-- BRANCHZERO `k` (43_control_transfer.md R143). -/
def execBranchzero (k : Nat) (s : State) : Result :=
  withFetched s fun f => branchIf f.accZero k f

/-- HALT (43_control_transfer.md R146): one snapshot, taken before the counter advances (R147). In strict_legacy mode
the cycle then completes as any other; in corrected mode the run ends with the counter on the HALT. The operand is
ignored. -/
def execHalt (_n : Nat) (s : State) : Result :=
  withFetched s fun f =>
    let shown := f.emit (.diag f.snapshot)
    match f.cycleMode with
    | .strictLegacy => completeCycle shown
    | .corrected => .next (shown.setStatus .stopped)

/-- NOP, any other opcode (44_no_operation.md R160): the cycle completes and nothing else happens. -/
def execNop (_opc _opd : Int) (s : State) : Result :=
  withFetched s fun f => completeCycle f

end Sys2Proof.Machine
end

