-- ==== Sys2Proof/Machine/InputOutput.lean ====
section
/-! DEFINITION. READ and WRITE (40_io.md). -/

namespace Sys2Proof.Machine

/-- READ `n` (40_io.md R100, R101). While the input is empty the cycle has not started and no state changes
(10_state.md R35, R39; log entry 5). One item is consumed, also when it faults; the check is made before the write. -/
def execRead (n : Nat) (s : State) : Result :=
  withFetched s fun f =>
    match f.input with
    | [] => .next s
    | v :: rest =>
      let taken := (f.setInput rest).emit .readPrompt
      if inRange v then storeWord n v taken else raiseFault .readRange taken

/-- WRITE `n` (40_io.md R102): `Out(M[n])`. -/
def execWrite (n : Nat) (s : State) : Result :=
  withFetched s fun f => withWord n f fun v => completeCycle (f.emit (.out v))

end Sys2Proof.Machine
end

