-- ==== Sys2Proof/Machine/LoadStore.lean ====
section
/-! DEFINITION. LOAD and STORE (41_load_store.md). -/

namespace Sys2Proof.Machine

/-- LOAD `n` (41_load_store.md R110): `acc <- M[n]`. -/
def execLoad (n : Nat) (s : State) : Result :=
  withFetched s fun f => withWord n f fun v => completeCycle (f.setAcc v)

/-- STORE `n` (41_load_store.md R111): `M[n] <- acc`. -/
def execStore (n : Nat) (s : State) : Result :=
  withFetched s fun f => storeWord n f.acc f

end Sys2Proof.Machine
end

