-- ==== Sys2Proof/Machine/Dispatch.lean ====
section
/-! DEFINITION. The dispatch of 30_encoding.md R74: one arm for each constructor of Instr, in the table's order. Each
meaning is one whole cycle of its instruction (10_state.md R39). -/

namespace Sys2Proof.Machine

def exec (i : Instr) (s : State) : Host.Outcome State Fault Refusal :=
  match i with
  | .read n => Sys2Proof.Machine.execRead n s
  | .write n => Sys2Proof.Machine.execWrite n s
  | .load n => Sys2Proof.Machine.execLoad n s
  | .store n => Sys2Proof.Machine.execStore n s
  | .add n => Sys2Proof.Machine.execAdd n s
  | .subtract n => Sys2Proof.Machine.execSubtract n s
  | .divide n => Sys2Proof.Machine.execDivide n s
  | .multiply n => Sys2Proof.Machine.execMultiply n s
  | .branch k => Sys2Proof.Machine.execBranch k s
  | .branchneg k => Sys2Proof.Machine.execBranchneg k s
  | .branchzero k => Sys2Proof.Machine.execBranchzero k s
  | .halt n => Sys2Proof.Machine.execHalt n s
  | .nop opc opd => Sys2Proof.Machine.execNop opc opd s

end Sys2Proof.Machine
end

