-- ==== Sys2Proof/Machine/HostPort.lean ====
section
/-! DEFINITION. The host's moves (00_scope.md R19; 10_state.md R31 to R36; 70_reset_and_hazards.md R200, R213). The
Loader of Machine/Loader.lean makes the first two within `step`; all of them are operations that a claim can apply
between two steps. The host has no other move (91_not_in_source.md N18). -/

namespace Sys2Proof.Machine

/-- The load port (10_state.md R34): while IDLE the host may write any Word to any address 0..99; the port accepts
nothing else and is closed in every other status. `none`: the write is not accepted. -/
def loadPort (a : Nat) (w : Int) (s : State) : Option State :=
  if s.status = .idle ∧ a < memSize ∧ inRange w then some (s.setCell a w) else none

/-- The `start` signal (70_reset_and_hazards.md R213): from IDLE to RUNNING, the registers as reset left them. It has
no meaning in another status (10_state.md R31). -/
def startSignal (s : State) : State :=
  if s.status = .idle then (s.setStatus .running).emit .started else s

/-- The host puts integers on the input stream (10_state.md R35): in order, any integers. -/
def supplyInput (items : List Int) (s : State) : State := s.setInput (s.input ++ items)

/-- The `reset` signal (70_reset_and_hazards.md R200, R201): one kind of reset, from any status, keeping nothing;
`CYCLE_MODE` is sampled, and the accumulator holds some `ACC_RESET`. -/
def resetSignal (mode : CycleMode) (accReset : Int) (_s : State) : State := State.resetWith mode accReset

/-- The number of a fault kind (60_exceptions.md R170, D11). -/
def FaultKind.code : FaultKind → Nat
  | .readRange => 1
  | .accRange => 2
  | .divZero => 3

/-- The exit code the host reads from the status once the run has ended (10_state.md R32): 0 for STOPPED, `EXIT_FAIL`
for every fault kind. -/
def Status.exitCode : Status → Option Int
  | .idle => none
  | .running => none
  | .stopped => some 0
  | .faulted _ => some Config.exitFail.toInt

end Sys2Proof.Machine
end

