-- ==== Sys2Proof/Machine/Loader.lean ====
section
/-! DEFINITION. The host's Validator and Loader (70_reset_and_hazards.md R207 to R213), in scope as host behaviour
(00_scope.md R5): what a step does while the status is IDLE (log entry 9). -/

namespace Sys2Proof.Machine

/-- The Validator (70_reset_and_hazards.md R207): the sentinel or a Word. -/
def validator (w : Int) : Bool := decide (w = sentinel) || decide (inRange w)

/-- One turn of the Loader's loop (70_reset_and_hazards.md R208 to R211). With 100 addresses filled, loading is
complete and nothing more is consumed (R211). Otherwise it asks for address `a` and waits for an item; a rejected item
is consumed and the same address is asked again (R210); the sentinel stores 0 and ends loading; any other accepted item
is stored verbatim (R212). On completion the host signals `start` (R213). -/
def loaderStep (s : State) : Result :=
  if s.loadAddr < memSize then
    match s.input with
    | [] => .next s
    | w :: rest =>
      let taken := (s.setInput rest).emit (.asked s.loadAddr)
      if validator w then
        if w = sentinel then .next (startSignal (taken.setCell s.loadAddr 0))
        else .next ((taken.setCell s.loadAddr w).setLoadAddr (s.loadAddr + 1))
      else .next (taken.emit .rejected)
  else .next (startSignal s)

end Sys2Proof.Machine
end

