-- ==== Sys2Proof/Machine/Step.lean ====
section
/-! DEFINITION. One step of the machine (10_state.md R30, R31, R39): the Loader while IDLE, a cycle while RUNNING, and
no change once the run has ended (10_state.md R40; log entry 6). -/

namespace Sys2Proof.Machine

/-- A cycle: fetch and decode the cell at the counter, then run its instruction (10_state.md R39). -/
def runCycle (s : State) : Host.Outcome State Fault Refusal :=
  match fetch s with
  | .ok i => exec i s
  | .error f => .fault f

/-- One step. -/
def step (s : State) : Host.Outcome State Fault Refusal :=
  match s.status with
  | .idle => loaderStep s
  | .running => runCycle s
  | .stopped => .next s
  | .faulted _ => .next s

/-- The state with the table's number `w` as the Word at the counter and the run started, so that the next step fetches
and runs it (log entries 9, 10). -/
def State.withFetchWord (s : State) (_nbits w : Nat) : State :=
  (s.setCell s.ic (w : Int)).setStatus .running

end Sys2Proof.Machine
end

