-- ==== Sys2Proof/Machine/Console.lean ====
section
/-! DEFINITION. The host's rendering of a run as text (10_state.md R36; 40_io.md R103, R104; 43_control_transfer.md R148,
R149; 60_exceptions.md R176; 70_reset_and_hazards.md R208, R210, R213). It is a function of the state and changes nothing.
Text that the spec does not quote is named and given no characters (91_not_in_source.md N8, N9, N16; log entry 14). -/

namespace Sys2Proof.Machine

/-- A piece of the text the host shows. Which pieces are lines, beside WRITE's, and that a prompt ends no line, is the
model's reading (log entry 15). -/
inductive HostText where
  /-- characters on a line of their own: an item of OUT (10_state.md R36, D15), or a message -/
  | line (cs : List Char)
  /-- a prompt the spec quotes, with no line end of its own -/
  | prompt (cs : List Char)
  /-- the prompt after a rejection (70_reset_and_hazards.md R210); its text is not in the source (N16) -/
  | retryPrompt
  /-- the register block of the dump; only the accumulator's form is given (43_control_transfer.md R148, N9) -/
  | registerBlock (accCell : List Char) (snap : Snapshot)
  /-- the column headings of the memory table; whether the table has any, and their text, is not in the source (N9). That
  the piece stands there is a DESIGN CHOICE (log entry 14) -/
  | columnHeadings
  /-- one row of the memory table, ten cells from address `first` on (43_control_transfer.md R149); its heading and the
  separators are not in the source (N9) and the piece gives them no characters, a DESIGN CHOICE (log entry 14) -/
  | dumpRow (first : Nat) (cells : List (List Char))
  /-- the first line of a fault's report, one of three messages; its text is not in the source (60_exceptions.md R176, N8) -/
  | faultMessage (kind : FaultKind)
  /-- the second line of a fault's report; its text is not in the source (60_exceptions.md R176, N8) -/
  | abnormalTermination
  deriving DecidableEq, Repr

/-- The character of one decimal digit. -/
def digitChar (d : Nat) : Char := Char.ofNat (48 + d % 10)

/-- Two zero-padded digits. -/
def pad2 (m : Nat) : List Char := [digitChar (m / 10), digitChar m]

/-- Four zero-padded digits. -/
def pad4 (m : Nat) : List Char :=
  [digitChar (m / 1000), digitChar (m / 100), digitChar (m / 10), digitChar m]

/-- A cell of the dump (43_control_transfer.md R149): a sign and four zero-padded digits; zero shows `+` (D21). -/
def cellText (v : Int) : List Char := (if v < 0 then '-' else '+') :: pad4 v.natAbs

/-- WRITE output, "plain decimal" (40_io.md R103): `-` for a negative value, no padding (D15). -/
def plainDecimal (v : Int) : List Char :=
  if v < 0 then '-' :: Nat.toDigits 10 v.natAbs else Nat.toDigits 10 v.natAbs

/-- The Loader's prompt for address `a` (70_reset_and_hazards.md R208). -/
def loadPrompt (a : Nat) : List Char := pad2 a ++ [' ', '?', ' ']

/-- The ten rows of the memory table, row `r` showing `M[10 r]` to `M[10 r + 9]` (43_control_transfer.md R149). -/
def dumpRows (m : Memory) : List (List (List Char)) :=
  (List.range 10).map fun r => (List.range 10).map fun c => cellText (m.read (10 * r + c))

/-- The memory table: its headings, which have no characters (log entry 14), and its ten rows. -/
def dumpTable (m : Memory) : List HostText :=
  .columnHeadings :: (dumpRows m).zipIdx.map fun (cells, r) => .dumpRow (10 * r) cells

/-- READ's prompt (40_io.md R104). -/
def readPromptText : HostText := .prompt ['?', ' ']

/-- The text of one event. A rejection shows its message and the retry prompt at once (70_reset_and_hazards.md R210), so
the request after it, `retrying`, shows no further prompt (log entry 14). -/
def eventText (retrying : Bool) : Event → List HostText
  | .asked a => if retrying then [] else [.prompt (loadPrompt a)]
  | .rejected => [.line "*** Unknown instruction ***".toList, .retryPrompt]
  | .started =>
    [.line "*** Program loading completed ***".toList, .line "*** Program execution begins ***".toList]
  | .readPrompt => [readPromptText]
  | .out w => [.line (plainDecimal w)]
  | .diag snap =>
    .line "*** Simpletron execution terminated ***".toList ::
      .registerBlock (cellText snap.acc) snap :: dumpTable snap.mem

/-- The text of a trace. -/
def traceText : Bool → List Event → List HostText
  | _, [] => []
  | retrying, e :: es => eventText retrying e ++ traceText (decide (e = .rejected)) es

/-- The last event was a rejection: the Loader is asking again (70_reset_and_hazards.md R210). -/
def State.retrying (s : State) : Bool := decide (s.trace.getLast? = some .rejected)

/-- The prompt that stands before the item the machine takes next, shown before the item is there and while the machine
waits for it: the Loader's for its address (70_reset_and_hazards.md R208), READ's (40_io.md R104, 10_state.md R35). The
event of the trace follows when the item is taken, and shows the same prompt (log entry 5). -/
def State.pendingPrompt (s : State) : List HostText :=
  match s.status with
  | .idle => if s.loadAddr < memSize then eventText s.retrying (.asked s.loadAddr) else []
  | .running =>
    match fetch s with
    | .ok (.read _) => [readPromptText]
    | _ => []
  | .stopped => []
  | .faulted _ => []

/-- What a status adds at the end: a fault shows its message and the abnormal-termination line, and no dump
(60_exceptions.md R176, 43_control_transfer.md R150). -/
def statusText : Status → List HostText
  | .faulted kind => [.faultMessage kind, .abnormalTermination]
  | .idle => []
  | .running => []
  | .stopped => []

/-- Everything the host has shown, the excluded banner apart (00_scope.md R6). -/
def State.console (s : State) : List HostText :=
  traceText false s.trace ++ s.pendingPrompt ++ statusText s.status

end Sys2Proof.Machine
end

