-- ==== Sys2Proof/Safety.lean ====
section
/-! DEFINITION. What claims call a good state and a safe step (10_state.md R24, R26, R28, R31, R41). -/

namespace Sys2Proof.Machine

/-- The invariant of 10_state.md R41, with the canonical form of memory, the decoded fields as functions of the
instruction register (R28), the counter's range in each status (R24, R26, R31) and the Loader's address (R209). -/
structure Inv (s : State) : Prop where
  /-- memory has its canonical form -/
  memCanonical : s.mem.wf = true
  /-- every cell holds a Word (R41 a) -/
  cellsAreWords : ∀ a, inRange (s.mem.read a)
  /-- the accumulator holds a Word (R41 b) -/
  accIsWord : inRange s.acc
  /-- the instruction register holds a Word (R27) -/
  irIsWord : inRange s.ir
  /-- the decoded fields are those of the instruction register (R28) -/
  fieldsOfIr : s.opc = tdiv s.ir 100 ∧ s.opd = tmod s.ir 100
  /-- the counter is 0 to 100 (R41 c) -/
  counterBound : s.ic ≤ 100
  /-- an instruction is fetched from 0..99 only (R41 c) -/
  runningCounter : s.status = .running → s.ic ≤ 99
  /-- before `start` the counter is 0 (R42, R213) -/
  idleCounter : s.status = .idle → s.ic = 0
  /-- in strict_legacy mode a run stops only at 100 (R26, R31) -/
  stoppedCounter : s.status = .stopped → s.cycleMode = .strictLegacy → s.ic = 100
  /-- a fault keeps the address of the faulting instruction (R25) -/
  faultedCounter : ∀ k, s.status = .faulted k → s.ic ≤ 99
  /-- the Loader fills addresses 0..99 (R209) -/
  loaderBound : s.loadAddr ≤ 100

/-- A step from `s` answers a next state: no stop of the model's own (20_memory.md R51, 44_no_operation.md R161). -/
def StepGoesOn (s : State) : Prop := ∃ t, step s = .next t

/-- `k` steps, stopping at the first stop. -/
def runSteps : Nat → State → Result
  | 0, s => .next s
  | k + 1, s =>
    match step s with
    | .next t => runSteps k t
    | .fault f => .fault f
    | .refused r => .refused r

end Sys2Proof.Machine
end

