-- ==== Sys2Proof/Certificates/Slice0/Obligations.lean ====
section
/-! DEFINITION. The statements for the provers. Each names the rule of spec/ it formalises. "The model's choice"
marks a clause that rests on a decision of the spec's own (92_eei_decisions.md) or of a log entry. -/

open Sys2Proof Sys2Proof.Machine

/-! ### Words for the statements, written out on the fields of the state -/

/-- `s` after the first three lines of the cycle (10_state.md R39), with Lean's own truncating division. -/
def Sys2Proof.Claims.fetched (s : State) : State :=
  { s with
    ir := s.mem.read s.ic
    opc := Int.tdiv (s.mem.read s.ic) 100
    opd := Int.tmod (s.mem.read s.ic) 100 }

/-- `s` with the +1 and the end test (10_state.md R25, R26). -/
def Sys2Proof.Claims.onward (s : State) : State :=
  { s with ic := s.ic + 1, status := if s.ic = 99 then .stopped else s.status }

/-- `s` after a taken branch to `k` (10_state.md R25; 43_control_transfer.md R140). -/
def Sys2Proof.Claims.branchedTo (k : Nat) (s : State) : State :=
  match s.cycleMode with
  | .strictLegacy => { s with ic := k + 1, status := if k = 99 then .stopped else s.status }
  | .corrected => { s with ic := k }

/-- The counter after a cycle of `i` at `s` that does not fault (the table of 10_state.md R25). -/
def Sys2Proof.Claims.counterAfter (i : Instr) (s : State) : Nat :=
  let target (k : Nat) : Nat := match s.cycleMode with
    | .strictLegacy => k + 1
    | .corrected => k
  match i with
  | .branch k => target k
  | .branchneg k => if s.acc < 0 then target k else s.ic + 1
  | .branchzero k => if s.acc = 0 then target k else s.ic + 1
  | .halt _ => match s.cycleMode with
    | .strictLegacy => s.ic + 1
    | .corrected => s.ic
  | .read _ => s.ic + 1
  | .write _ => s.ic + 1
  | .load _ => s.ic + 1
  | .store _ => s.ic + 1
  | .add _ => s.ic + 1
  | .subtract _ => s.ic + 1
  | .divide _ => s.ic + 1
  | .multiply _ => s.ic + 1
  | .nop _ _ => s.ic + 1

/-- `i` is a READ that finds no input at `s`: its cycle waits (10_state.md R35). -/
def Sys2Proof.Claims.waiting (i : Instr) (s : State) : Prop := (∃ n, i = .read n) ∧ s.input = []

/-- The items of a Loader's input that the Validator accepts as Words, in order (70_reset_and_hazards.md R209). -/
def Sys2Proof.Claims.accepted (xs : List Int) : List Int := xs.filter fun x => decide (-9999 ≤ x ∧ x ≤ 9999)

/-- The instruction register and its fields are in `t` as reset left them (70_reset_and_hazards.md R213). -/
def Sys2Proof.Claims.unlatched (mode : CycleMode) (v : Int) (t : State) : Prop :=
  t.ir = (State.resetWith mode v).ir ∧ t.opc = (State.resetWith mode v).opc ∧ t.opd = (State.resetWith mode v).opd

/-- The trace of a Loader that takes the items `xs`, none the sentinel, from address `a` on: one prompt an item, and
a rejection after an item that is no Word (70_reset_and_hazards.md R208, R210). -/
def Sys2Proof.Claims.loaderTrace : Nat → List Int → List Event
  | _, [] => []
  | a, x :: xs =>
    if -9999 ≤ x ∧ x ≤ 9999 then .asked a :: Sys2Proof.Claims.loaderTrace (a + 1) xs
    else .asked a :: .rejected :: Sys2Proof.Claims.loaderTrace a xs

/-- The rows (acc, M[n], new acc) of the table of 42_arithmetic.md R126. -/
def Sys2Proof.Claims.divisionTable : List (Int × Int × Int) :=
  [(7, 2, 3), (-7, 2, -3), (7, -2, -3), (-7, -2, 3), (1, 2, 0), (-1, 2, 0), (0, 5, 0), (0, -5, 0), (9999, 9999, 1),
    (-9999, 100, -99), (100, -9999, 0), (-9999, -1, 9999), (9999, -1, -9999)]

open Sys2Proof.Claims

/-! ### Encoding -/

/-- 30_encoding.md R82 and R71: decoding the Word of any well-formed instruction gives that instruction. -/
def Obligations.DecodeOfEncodeIsTheInstruction : Prop :=
  ∀ i : Instr, i.wellFormed = true → decode (encode i) = .ok i

/-- 30_encoding.md R76 ("every Word is executable") and R71: every Word decodes to a well-formed instruction, which
encodes to that Word and is the only one that does. -/
def Obligations.EveryWordIsOneInstruction : Prop :=
  ∀ w : Int, -9999 ≤ w → w ≤ 9999 →
    ∃ i : Instr, decode w = .ok i ∧ i.wellFormed = true ∧ encode i = w ∧
      ∀ j : Instr, j.wellFormed = true → encode j = w → j = i

/-- 30_encoding.md R71: decode is total on Words; its two fields, their ranges and signs; and every cycle that runs
leaves the fields of the fetched Word in the registers. -/
def Obligations.FieldsOfEveryWord : Prop :=
  (∀ w : Int, -9999 ≤ w → w ≤ 9999 →
    (∃ i, decode w = .ok i) ∧
    w = tdiv w 100 * 100 + tmod w 100 ∧
    (-99 ≤ tdiv w 100 ∧ tdiv w 100 ≤ 99) ∧ (-99 ≤ tmod w 100 ∧ tmod w 100 ≤ 99) ∧
    (0 ≤ w → 0 ≤ tdiv w 100 ∧ 0 ≤ tmod w 100) ∧ (w ≤ 0 → tdiv w 100 ≤ 0 ∧ tmod w 100 ≤ 0)) ∧
  (∀ (i : Instr) (s t : State), exec i s = .next t → ¬ waiting i s →
    t.ir = s.mem.read s.ic ∧ t.opc = tdiv t.ir 100 ∧ t.opd = tmod t.ir 100)

/-- 30_encoding.md R74: the opcode alone selects the instruction, by the table's numbers and Word ranges. -/
def Obligations.OpcodeMapByWordRange : Prop :=
  ∀ w : Int, -9999 ≤ w → w ≤ 9999 →
    let opd := (tmod w 100).toNat
    ((1000 ≤ w ∧ w ≤ 1099 ↔ tdiv w 100 = 10) ∧ (tdiv w 100 = 10 → decode w = .ok (.read opd))) ∧
    ((1100 ≤ w ∧ w ≤ 1199 ↔ tdiv w 100 = 11) ∧ (tdiv w 100 = 11 → decode w = .ok (.write opd))) ∧
    ((2000 ≤ w ∧ w ≤ 2099 ↔ tdiv w 100 = 20) ∧ (tdiv w 100 = 20 → decode w = .ok (.load opd))) ∧
    ((2100 ≤ w ∧ w ≤ 2199 ↔ tdiv w 100 = 21) ∧ (tdiv w 100 = 21 → decode w = .ok (.store opd))) ∧
    ((3000 ≤ w ∧ w ≤ 3099 ↔ tdiv w 100 = 30) ∧ (tdiv w 100 = 30 → decode w = .ok (.add opd))) ∧
    ((3100 ≤ w ∧ w ≤ 3199 ↔ tdiv w 100 = 31) ∧ (tdiv w 100 = 31 → decode w = .ok (.subtract opd))) ∧
    ((3200 ≤ w ∧ w ≤ 3299 ↔ tdiv w 100 = 32) ∧ (tdiv w 100 = 32 → decode w = .ok (.divide opd))) ∧
    ((3300 ≤ w ∧ w ≤ 3399 ↔ tdiv w 100 = 33) ∧ (tdiv w 100 = 33 → decode w = .ok (.multiply opd))) ∧
    ((4000 ≤ w ∧ w ≤ 4099 ↔ tdiv w 100 = 40) ∧ (tdiv w 100 = 40 → decode w = .ok (.branch opd))) ∧
    ((4100 ≤ w ∧ w ≤ 4199 ↔ tdiv w 100 = 41) ∧ (tdiv w 100 = 41 → decode w = .ok (.branchneg opd))) ∧
    ((4200 ≤ w ∧ w ≤ 4299 ↔ tdiv w 100 = 42) ∧ (tdiv w 100 = 42 → decode w = .ok (.branchzero opd))) ∧
    ((4300 ≤ w ∧ w ≤ 4399 ↔ tdiv w 100 = 43) ∧ (tdiv w 100 = 43 → decode w = .ok (.halt opd))) ∧
    (tdiv w 100 ∉ [10, 11, 20, 21, 30, 31, 32, 33, 40, 41, 42, 43] →
      decode w = .ok (.nop (tdiv w 100) (tmod w 100)))

/-- 30_encoding.md R72: the decode examples of the spec. -/
def Obligations.DecodeExamplesOfTheSpec : Prop :=
  decode 4300 = .ok (.halt 0) ∧ decode 4399 = .ok (.halt 99) ∧ decode 1000 = .ok (.read 0) ∧
  decode 1099 = .ok (.read 99) ∧ decode 3299 = .ok (.divide 99) ∧ decode 3300 = .ok (.multiply 0) ∧
  decode 4400 = .ok (.nop 44 0) ∧ decode 9999 = .ok (.nop 99 99) ∧ decode 999 = .ok (.nop 9 99) ∧
  decode 100 = .ok (.nop 1 0) ∧ decode 0 = .ok (.nop 0 0) ∧ decode (-1) = .ok (.nop 0 (-1)) ∧
  decode (-99) = .ok (.nop 0 (-99)) ∧ decode (-100) = .ok (.nop (-1) 0) ∧
  decode (-1050) = .ok (.nop (-10) (-50)) ∧ decode (-1234) = .ok (.nop (-12) (-34)) ∧
  decode (-9999) = .ok (.nop (-99) (-99))

/-- The model's choice (log entry 11): an integer that is no Word is rejected by name. -/
def Obligations.NonWordsAreRejected : Prop :=
  ∀ w : Int, (w < -9999 ∨ 9999 < w) → decode w = .error (.notAWord w)

/-- 00_scope.md R13: truncating division and remainder, and the rule's six examples. -/
def Obligations.TruncatingDivisionRoundsTowardZero : Prop :=
  (∀ a b : Int, b ≠ 0 →
    tdiv a b = (if 0 ≤ a then 1 else -1) * (if 0 ≤ b then 1 else -1) * (|a| / |b|) ∧
    tmod a b = a - b * tdiv a b ∧
    |b * tdiv a b| ≤ |a| ∧ |tmod a b| < |b| ∧
    ((0 ≤ a → 0 ≤ tmod a b) ∧ (a ≤ 0 → tmod a b ≤ 0))) ∧
  tdiv 7 2 = 3 ∧ tdiv (-7) 2 = -3 ∧ tdiv 7 (-2) = -3 ∧ tdiv (-7) (-2) = 3 ∧
  tmod (-1234) 100 = -34 ∧ tmod 4300 100 = 0

/-! ### The machine -/

/-- 10_state.md R39: while RUNNING, the cell at the counter is decoded and a step is the cycle of that instruction.
`exec` itself is the whole cycle: nothing stands around it. -/
def Obligations.StepRunsTheDecodedInstruction : Prop :=
  ∀ (s : State) (i : Instr), s.status = .running → s.ic ≤ 99 → decode (s.mem.read s.ic) = .ok i →
    step s = exec i s

/-- 10_state.md R42, R200: every field after reset, for either CYCLE_MODE and any ACC_RESET. `ir`, `opc` and `opd` are
not stated: their values are the model's choice (log entry 2). The counter's 0 is the spec's decision D5. -/
def Obligations.ResetLeavesTheSpecsValues : Prop :=
  ∀ (mode : CycleMode) (v : Int),
    let r := State.resetWith mode v
    (∀ a, r.mem.read a = 0) ∧ r.acc = v ∧ r.ic = 0 ∧ r.status = .idle ∧ r.input = [] ∧ r.out = [] ∧
    r.diag = [] ∧ r.cycleMode = mode ∧ (∀ s, resetSignal mode v s = r)

/-- 10_state.md R25: the counter after every cycle, in both modes; a faulting cycle leaves it. -/
def Obligations.CounterAfterEveryCycle : Prop :=
  ∀ (i : Instr) (s t : State), exec i s = .next t → s.status = .running → ¬ waiting i s →
    ((∀ k, t.status ≠ .faulted k) → t.ic = counterAfter i s) ∧
    (∀ k, t.status = .faulted k → t.ic = s.ic)

/-- 10_state.md R31: all the transitions of the status. That a step in IDLE is one turn of the Loader, which starts the run
exactly with 100 addresses filled or with the sentinel at the head of the input, is the model's choice (log entry 9). The
status is the spec's decision D1, the corrected HALT its decision D9. -/
def Obligations.StatusTransitions : Prop :=
  (∀ s t : State, step s = .next t →
    (s.status = .idle →
      (t.status = .running ∧ (100 ≤ s.loadAddr ∨ s.input.head? = some (-99999))) ∨
      (t.status = .idle ∧ ¬ (100 ≤ s.loadAddr ∨ s.input.head? = some (-99999)))) ∧
    (s.status = .running →
      (t.status = .running ∧ t.ic ≠ 100) ∨
      (t.status = .stopped ∧
        (t.ic = 100 ∨ (s.cycleMode = .corrected ∧ ∃ n, fetch s = .ok (.halt n)))) ∨
      (∃ k, t.status = .faulted k)) ∧
    (s.status = .stopped → t = s) ∧ (∀ k, s.status = .faulted k → t = s)) ∧
  (∀ (mode : CycleMode) (v : Int) (s : State), (resetSignal mode v s).status = .idle)

/-- 60_exceptions.md R170 to R173: exactly when a cycle faults, and with which kind; no other instruction faults. The
kinds are the spec's own names (D11). -/
def Obligations.FaultsExactlyOnTheirConditions : Prop :=
  ∀ (i : Instr) (s t : State), exec i s = .next t → s.status = .running →
    (t.status = .faulted .readRange ↔
      ∃ n v rest, i = .read n ∧ s.input = v :: rest ∧ (v < -9999 ∨ 9999 < v)) ∧
    (t.status = .faulted .accRange ↔
      ∃ n r, ((i = .add n ∧ r = s.acc + s.mem.read n) ∨ (i = .subtract n ∧ r = s.acc - s.mem.read n) ∨
        (i = .multiply n ∧ r = s.acc * s.mem.read n)) ∧ (r < -9999 ∨ 9999 < r)) ∧
    (t.status = .faulted .divZero ↔ ∃ n, i = .divide n ∧ s.mem.read n = 0)

/-- 60_exceptions.md R174: a faulting cycle changes the status, the fetched registers and, for READ, the input stream
(one item) and nothing else. That it writes neither `acc` nor memory is the spec's decision D10. -/
def Obligations.FaultEntryChangesOnlyTheStatus : Prop :=
  ∀ (i : Instr) (s t : State) (k : FaultKind),
    exec i s = .next t → s.status = .running → t.status = .faulted k →
    t = { fetched s with status := .faulted k, input := t.input, trace := t.trace } ∧
    t.out = s.out ∧ t.diag = s.diag ∧
    ((∃ n, i = .read n) → t.input = s.input.tail) ∧
    ((∀ n, i ≠ .read n) → t.input = s.input ∧ t.trace = s.trace)

/-- 10_state.md R41 (with R24, R26, R28): the invariant holds after reset, for either mode and every Word ACC_RESET. -/
def Obligations.InvHoldsAtReset : Prop :=
  ∀ (mode : CycleMode) (v : Int), -9999 ≤ v → v ≤ 9999 → Inv (State.resetWith mode v)

/-- 10_state.md R41: every step, of the Loader or of the engine, keeps the invariant. -/
def Obligations.EveryStepKeepsInv : Prop :=
  ∀ s t : State, Inv s → step s = .next t → Inv t

/-- 20_memory.md R51, 44_no_operation.md R161: progress: under the invariant no step stops the model; every Word is executable,
and no access is out of bounds. `EveryStepKeepsInv` is the invariant's preservation. -/
def Obligations.EveryStepGoesOnUnderInv : Prop :=
  ∀ s : State, Inv s → ∃ t, step s = .next t

/-- 10_state.md R34, R35, R213: the host's moves keep the invariant. -/
def Obligations.HostMovesKeepInv : Prop :=
  ∀ s : State, Inv s →
    (∀ a w t, loadPort a w s = some t → Inv t) ∧ Inv (startSignal s) ∧ (∀ xs, Inv (supplyInput xs s)) ∧
    (∀ mode v, -9999 ≤ v → v ≤ 9999 → Inv (resetSignal mode v s))

/-! ### The result of each instruction, with its encoding and its whole frame -/

/-- 40_io.md R100, with R101 (D10) for the fault: READ waits, stores or faults, by the head of the input alone. -/
def Obligations.ReadTakesOneItem : Prop :=
  ∀ (s : State) (n : Nat), s.mem.wf = true → s.ic ≤ 99 → n ≤ 99 →
    decode (1000 + n) = .ok (.read n) ∧
    (s.input = [] → exec (.read n) s = .next s) ∧
    (∀ v rest, s.input = v :: rest → -9999 ≤ v → v ≤ 9999 →
      ∃ m : Memory, m.wf = true ∧ (∀ a, m.read a = if a = n then v else s.mem.read a) ∧
        exec (.read n) s =
          .next (onward { fetched s with mem := m, input := rest, trace := s.trace ++ [.readPrompt] })) ∧
    (∀ v rest, s.input = v :: rest → (v < -9999 ∨ 9999 < v) →
      exec (.read n) s =
        .next { fetched s with
          input := rest, trace := s.trace ++ [.readPrompt], status := .faulted .readRange })

/-- 40_io.md R102. -/
def Obligations.WriteAppendsTheCellToOut : Prop :=
  ∀ (s : State) (n : Nat), s.ic ≤ 99 → n ≤ 99 →
    decode (1100 + n) = .ok (.write n) ∧
    ∃ t, exec (.write n) s = .next t ∧ t.out = s.out ++ [s.mem.read n] ∧ t.diag = s.diag ∧
      t = onward { fetched s with trace := s.trace ++ [.out (s.mem.read n)] }

/-- 41_load_store.md R110. -/
def Obligations.LoadCopiesTheCellToAcc : Prop :=
  ∀ (s : State) (n : Nat), s.ic ≤ 99 → n ≤ 99 →
    decode (2000 + n) = .ok (.load n) ∧
    exec (.load n) s = .next (onward { fetched s with acc := s.mem.read n })

/-- 41_load_store.md R111: the cell of the operand takes the accumulator, every other cell is as before. -/
def Obligations.StoreCopiesAccToTheCell : Prop :=
  ∀ (s : State) (n : Nat), s.mem.wf = true → s.ic ≤ 99 → n ≤ 99 →
    decode (2100 + n) = .ok (.store n) ∧
    ∃ m : Memory, m.wf = true ∧ (∀ a, m.read a = if a = n then s.acc else s.mem.read a) ∧
      exec (.store n) s = .next (onward { fetched s with mem := m })

/-- 42_arithmetic.md R120. -/
def Obligations.AddIsExactOrFaults : Prop :=
  ∀ (s : State) (n : Nat), s.ic ≤ 99 → n ≤ 99 →
    let r := s.acc + s.mem.read n
    decode (3000 + n) = .ok (.add n) ∧
    (-9999 ≤ r → r ≤ 9999 → exec (.add n) s = .next (onward { fetched s with acc := r })) ∧
    ((r < -9999 ∨ 9999 < r) → exec (.add n) s = .next { fetched s with status := .faulted .accRange })

/-- 42_arithmetic.md R122: the accumulator is the minuend. -/
def Obligations.SubtractIsExactOrFaults : Prop :=
  ∀ (s : State) (n : Nat), s.ic ≤ 99 → n ≤ 99 →
    let r := s.acc - s.mem.read n
    decode (3100 + n) = .ok (.subtract n) ∧
    (-9999 ≤ r → r ≤ 9999 → exec (.subtract n) s = .next (onward { fetched s with acc := r })) ∧
    ((r < -9999 ∨ 9999 < r) → exec (.subtract n) s = .next { fetched s with status := .faulted .accRange })

/-- 42_arithmetic.md R124: the quotient rounds toward zero; a zero divisor faults whatever `acc` is. -/
def Obligations.DivideTruncatesOrFaults : Prop :=
  ∀ (s : State) (n : Nat), s.ic ≤ 99 → n ≤ 99 →
    decode (3200 + n) = .ok (.divide n) ∧
    (s.mem.read n ≠ 0 →
      exec (.divide n) s = .next (onward { fetched s with acc := Int.tdiv s.acc (s.mem.read n) })) ∧
    (s.mem.read n = 0 → exec (.divide n) s = .next { fetched s with status := .faulted .divZero })

/-- 42_arithmetic.md R127. -/
def Obligations.MultiplyIsExactOrFaults : Prop :=
  ∀ (s : State) (n : Nat), s.ic ≤ 99 → n ≤ 99 →
    let r := s.acc * s.mem.read n
    decode (3300 + n) = .ok (.multiply n) ∧
    (-9999 ≤ r → r ≤ 9999 → exec (.multiply n) s = .next (onward { fetched s with acc := r })) ∧
    ((r < -9999 ∨ 9999 < r) → exec (.multiply n) s = .next { fetched s with status := .faulted .accRange }) ∧
    (-9999 ≤ s.acc ∧ s.acc ≤ 9999 → -9999 ≤ s.mem.read n ∧ s.mem.read n ≤ 9999 → |r| ≤ 99980001)

/-- 43_control_transfer.md R141, R140; the corrected mode is the spec's decision D8. -/
def Obligations.BranchGoesToItsTarget : Prop :=
  ∀ (s : State) (k : Nat), s.ic ≤ 99 → k ≤ 99 →
    decode (4000 + k) = .ok (.branch k) ∧
    exec (.branch k) s = .next (branchedTo k (fetched s))

/-- 43_control_transfer.md R142, R140; the corrected mode is the spec's decision D8. -/
def Obligations.BranchnegGoesOnNegative : Prop :=
  ∀ (s : State) (k : Nat), s.ic ≤ 99 → k ≤ 99 →
    decode (4100 + k) = .ok (.branchneg k) ∧
    (s.acc < 0 → exec (.branchneg k) s = .next (branchedTo k (fetched s))) ∧
    (0 ≤ s.acc → exec (.branchneg k) s = .next (onward (fetched s)))

/-- 43_control_transfer.md R143, R140; the corrected mode is the spec's decision D8. -/
def Obligations.BranchzeroGoesOnZero : Prop :=
  ∀ (s : State) (k : Nat), s.ic ≤ 99 → k ≤ 99 →
    decode (4200 + k) = .ok (.branchzero k) ∧
    (s.acc = 0 → exec (.branchzero k) s = .next (branchedTo k (fetched s))) ∧
    (s.acc ≠ 0 → exec (.branchzero k) s = .next (onward (fetched s)))

/-- 43_control_transfer.md R146, R147, for every operand; the corrected mode is the spec's decision D9. -/
def Obligations.HaltDeliversASnapshot : Prop :=
  ∀ (s : State) (n : Nat), s.ic ≤ 99 →
    let snap : Snapshot :=
      { acc := s.acc, ic := s.ic, ir := s.mem.read s.ic, opc := Int.tdiv (s.mem.read s.ic) 100,
        opd := Int.tmod (s.mem.read s.ic) 100, mem := s.mem }
    let shown : State := { fetched s with trace := s.trace ++ [.diag snap] }
    (n ≤ 99 → decode (4300 + n) = .ok (.halt n)) ∧
    shown.diag = s.diag ++ [snap] ∧ shown.out = s.out ∧
    (s.cycleMode = .strictLegacy → exec (.halt n) s = .next (onward shown)) ∧
    (s.cycleMode = .corrected → exec (.halt n) s = .next { shown with status := .stopped })

/-- 43_control_transfer.md R147: what a step that runs a HALT word delivers: the counter is the address of the HALT,
`ir` the HALT word itself, and the memory as it is at the HALT. -/
def Obligations.HaltStepSnapshotContents : Prop :=
  ∀ (s : State) (n : Nat), s.status = .running → s.ic ≤ 99 → n ≤ 99 → s.mem.read s.ic = 4300 + n →
    ∃ t, step s = .next t ∧ t.mem = s.mem ∧ t.acc = s.acc ∧
      t.diag = s.diag ++ [{ acc := s.acc, ic := s.ic, ir := 4300 + n, opc := 43, opd := n, mem := s.mem }]

/-- 44_no_operation.md R160: every Word whose opcode is none of the twelve is a NOP, and a NOP's cycle only fetches and
advances, in both modes. -/
def Obligations.NopOnlyAdvances : Prop :=
  (∀ w : Int, -9999 ≤ w → w ≤ 9999 →
    (((-9999 ≤ w ∧ w ≤ 999) ∨ (1200 ≤ w ∧ w ≤ 1999) ∨ (2200 ≤ w ∧ w ≤ 2999) ∨ (3400 ≤ w ∧ w ≤ 3999) ∨
      (4400 ≤ w ∧ w ≤ 9999)) ↔ ∃ opc opd, decode w = .ok (.nop opc opd))) ∧
  (∀ (s : State) (opc opd : Int), s.ic ≤ 99 → exec (.nop opc opd) s = .next (onward (fetched s)))

/-! ### Rules over several instructions -/

/-- 42_arithmetic.md R121: for ADD, SUBTRACT and MULTIPLY the exact result decides: outside the range AccRange and `acc`
not written, inside it `acc` takes the result; 10000 and -10000 always fault, 9999 and -9999 never do. -/
def Obligations.ArithmeticRangeFault : Prop :=
  ∀ (s : State) (n : Nat) (i : Instr) (r : Int), s.ic ≤ 99 → n ≤ 99 →
    ((i = .add n ∧ r = s.acc + s.mem.read n) ∨ (i = .subtract n ∧ r = s.acc - s.mem.read n) ∨
      (i = .multiply n ∧ r = s.acc * s.mem.read n)) →
    ((r < -9999 ∨ 9999 < r) →
      ∃ t, exec i s = .next t ∧ t.status = .faulted .accRange ∧ t.acc = s.acc) ∧
    (-9999 ≤ r → r ≤ 9999 →
      ∃ t, exec i s = .next t ∧ t.acc = r ∧ (s.status = .running → t.status ≠ .faulted .accRange)) ∧
    ((r = 10000 ∨ r = -10000) → ∃ t, exec i s = .next t ∧ t.status = .faulted .accRange) ∧
    ((r = 9999 ∨ r = -9999) → s.status = .running →
      ∃ t, exec i s = .next t ∧ ∀ k, t.status ≠ .faulted k)

/-- 42_arithmetic.md R126: the thirteen rows of its table of quotients, and its last row, the zero divisor. The rule for every
pair of operands is `DivideTruncatesOrFaults`, with `TruncatingDivisionRoundsTowardZero`. -/
def Obligations.DivisionSignTable : Prop :=
  (∀ e ∈ divisionTable,
    ∀ (s : State) (n : Nat), s.ic ≤ 99 → n ≤ 99 → s.acc = e.1 → s.mem.read n = e.2.1 →
      exec (.divide n) s = .next (onward { fetched s with acc := e.2.2 })) ∧
  (∀ (s : State) (n : Nat), s.ic ≤ 99 → n ≤ 99 → s.mem.read n = 0 →
    ∃ t, exec (.divide n) s = .next t ∧ t.acc = s.acc ∧ t.status = .faulted .divZero)

/-- 42_arithmetic.md R125: DIVIDE cannot leave the Word range. -/
def Obligations.QuotientOfAWordIsAWord : Prop :=
  ∀ a d : Int, -9999 ≤ a → a ≤ 9999 → d ≠ 0 → |tdiv a d| ≤ |a| ∧ -9999 ≤ tdiv a d ∧ tdiv a d ≤ 9999

/-- 10_state.md R22: the accumulator is written by LOAD and the four arithmetic instructions and by nothing else. -/
def Obligations.AccWrittenByFiveInstructionsOnly : Prop :=
  ∀ (i : Instr) (s t : State), exec i s = .next t →
    (∀ n, i ≠ .load n ∧ i ≠ .add n ∧ i ≠ .subtract n ∧ i ≠ .divide n ∧ i ≠ .multiply n) → t.acc = s.acc

/-- 10_state.md R22: READ, WRITE, BRANCH and NOP neither read nor write the accumulator: a run of one of them from a
state that differs in it ends in a state that differs in it alone. -/
def Obligations.FourInstructionsIgnoreAcc : Prop :=
  ∀ (i : Instr) (s t : State) (v : Int),
    ((∃ n, i = .read n) ∨ (∃ n, i = .write n) ∨ (∃ k, i = .branch k) ∨ (∃ c d, i = .nop c d)) →
    exec i s = .next t → exec i { s with acc := v } = .next { t with acc := v }

/-- 10_state.md R21, 20_memory.md R55: only READ and STORE write memory, and only the cell of their operand. -/
def Obligations.MemoryWrittenAtTheOperandOnly : Prop :=
  ∀ (i : Instr) (s t : State), exec i s = .next t → s.mem.wf = true →
    (∀ a : Nat, (∀ n, i = .read n ∨ i = .store n → a ≠ n) → t.mem.read a = s.mem.read a) ∧
    ((∀ n, i ≠ .read n ∧ i ≠ .store n) → t.mem = s.mem)

/-- 20_memory.md R58 (section 5), 10_state.md R35 to R37: the input is reached only by READ, OUT only by WRITE and DIAG only
by HALT; each moves by one item. -/
def Obligations.ChannelsMovedByTheirInstructionOnly : Prop :=
  ∀ (i : Instr) (s t : State), exec i s = .next t →
    t.input = (match i with | .read _ => s.input.tail | _ => s.input) ∧
    t.out = (match i with | .write n => s.out ++ [s.mem.read n] | _ => s.out) ∧
    (match i with | .halt _ => t.diag.length = s.diag.length + 1 ∧ s.diag <+: t.diag | _ => t.diag = s.diag)

/-- 00_scope.md R9: CYCLE_MODE is fixed at reset: no step of the Loader or of the engine changes it. That a cycle leaves the
Loader's address alone is about a field of the model's own (log entry 9). -/
def Obligations.CycleModeNeverChanges : Prop :=
  ∀ s t : State, step s = .next t →
    t.cycleMode = s.cycleMode ∧ (s.status = .running → t.loadAddr = s.loadAddr)

/-- 20_memory.md R63: a STORE into the next cell is what the next step executes. -/
def Obligations.StoredWordIsExecutedNext : Prop :=
  ∀ (s : State) (i : Instr), s.mem.wf = true → s.status = .running → s.ic ≤ 98 → decode s.acc = .ok i →
    ∃ t, exec (.store (s.ic + 1)) s = .next t ∧ t.ic = s.ic + 1 ∧ step t = exec i t

/-- 43_control_transfer.md R146: in strict_legacy mode a HALT below 99 is followed by the execution of the next cell. -/
def Obligations.HaltIsFollowedByTheNextWord : Prop :=
  ∀ (s : State) (n : Nat) (j : Instr),
    s.status = .running → s.cycleMode = .strictLegacy → s.ic ≤ 98 →
    decode (s.mem.read s.ic) = .ok (.halt n) → decode (s.mem.read (s.ic + 1)) = .ok j →
    ∃ t, step s = .next t ∧ t.ic = s.ic + 1 ∧ step t = exec j t

/-- 43_control_transfer.md R144: in strict_legacy mode no completed cycle leaves the counter at 0; only a waiting READ or
a fault at address 0 does. -/
def Obligations.AddressZeroIsNeverReentered : Prop :=
  ∀ (i : Instr) (s t : State), exec i s = .next t → s.cycleMode = .strictLegacy → t.ic = 0 →
    s.ic = 0 ∧ (waiting i s ∨ ∃ k, t.status = .faulted k)

/-- 10_state.md R35, D13: a READ with no input changes nothing, however long it waits, and goes on once the host
supplies an item. -/
def Obligations.ReadWaitsForInput : Prop :=
  ∀ (s : State) (n : Nat), s.status = .running → fetch s = .ok (.read n) → s.input = [] →
    (∀ k, runSteps k s = .next s) ∧
    ∀ v rest, -9999 ≤ v → v ≤ 9999 → n ≤ 99 →
      ∃ t, step (supplyInput (v :: rest) s) = .next t ∧ t.input = rest ∧ t.ic = s.ic + 1

/-- 10_state.md R27, R28, D7: no cycle reads the instruction register or its fields before the fetch writes them, so
their values before a cycle that does not wait cannot be observed. -/
def Obligations.OldInstructionRegisterIsUnobservable : Prop :=
  ∀ (s : State) (r o d : Int), s.status = .running → (∀ i, fetch s = .ok i → ¬ waiting i s) →
    step { s with ir := r, opc := o, opd := d } = step s

/-- 44_no_operation.md R160, 10_state.md R26: from any address, cells that all decode to NOPs carry the counter up to
100, one step each; the run then has stopped and nothing else has changed. -/
def Obligations.NopsCarryTheCounterTo100 : Prop :=
  ∀ s : State, s.status = .running → s.ic ≤ 99 →
    (∀ a, s.ic ≤ a → a ≤ 99 → ∃ opc opd, decode (s.mem.read a) = .ok (.nop opc opd)) →
    ∃ t, runSteps (100 - s.ic) s = .next t ∧ t.status = .stopped ∧ t.ic = 100 ∧ t.acc = s.acc ∧
      t.mem = s.mem ∧ t.input = s.input ∧ t.trace = s.trace

/-- The model's choice (log entry 12), for operands and counters that no reachable state has (20_memory.md R51): the
model stops by name. -/
def Obligations.OutsideMemoryStopsByName : Prop :=
  ∀ s : State,
    (100 ≤ s.ic → ∀ i, exec i s = .fault (.fetchOutsideMemory s.ic)) ∧
    (s.ic ≤ 99 → ∀ n, 100 ≤ n →
      exec (.write n) s = .fault (.addressOutsideMemory n) ∧
      exec (.load n) s = .fault (.addressOutsideMemory n) ∧
      exec (.store n) s = .fault (.addressOutsideMemory n) ∧
      exec (.add n) s = .fault (.addressOutsideMemory n) ∧
      exec (.subtract n) s = .fault (.addressOutsideMemory n) ∧
      exec (.divide n) s = .fault (.addressOutsideMemory n) ∧
      exec (.multiply n) s = .fault (.addressOutsideMemory n) ∧
      exec (.branch n) s = .fault (.addressOutsideMemory n) ∧
      exec (.branchneg n) s = .fault (.addressOutsideMemory n) ∧
      exec (.branchzero n) s = .fault (.addressOutsideMemory n) ∧
      (∀ v rest, s.input = v :: rest → -9999 ≤ v → v ≤ 9999 →
        exec (.read n) s = .fault (.addressOutsideMemory n)))

/-- The model's canonical form of memory (log entry 3): two memories in form that read alike are the same data. -/
def Obligations.CanonicalMemoriesThatReadAlikeAreEqual : Prop :=
  ∀ m m' : Memory, m.wf = true → m'.wf = true → (∀ a, m.read a = m'.read a) → m = m'

/-! ### The host's side -/

/-- 70_reset_and_hazards.md R207: the Validator, with the rule's seven examples. -/
def Obligations.ValidatorAcceptsWordsAndSentinel : Prop :=
  (∀ w : Int, validator w = true ↔ w = -99999 ∨ (-9999 ≤ w ∧ w ≤ 9999)) ∧
  validator 9999 = true ∧ validator (-9999) = true ∧ validator 10000 = false ∧ validator (-10000) = false ∧
  validator 99999 = false ∧ validator (-99998) = false ∧ validator (-99999) = true

/-- 70_reset_and_hazards.md R209 (with the prompts of R208): for every input, what loading leaves. Items that are no
Words are passed over, the accepted ones fill memory from address 0; the sentinel, or the hundredth accepted Word, ends
loading; what follows is left for READ; the counter, `acc`, `ir`, `opc`, `opd` and the mode are as reset left them, and the
run has started. The Loader as steps is log entry 9, the trace log entry 8. -/
def Obligations.LoaderFillsMemoryFromTheInput : Prop :=
  ∀ (mode : CycleMode) (v : Int) (xs rest : List Int), (∀ x ∈ xs, x ≠ -99999) →
    ((accepted xs).length ≤ 99 →
      ∃ t, runSteps (xs.length + 1) (supplyInput (xs ++ -99999 :: rest) (State.resetWith mode v)) = .next t ∧
        t.status = .running ∧ t.ic = 0 ∧ t.acc = v ∧ t.cycleMode = mode ∧ t.input = rest ∧ unlatched mode v t ∧
        (∀ a, t.mem.read a = (accepted xs).getD a 0) ∧
        t.trace = loaderTrace 0 xs ++ [.asked (accepted xs).length, .started]) ∧
    (∀ w, -9999 ≤ w → w ≤ 9999 → (accepted xs).length = 99 →
      ∃ t, runSteps (xs.length + 2) (supplyInput (xs ++ w :: rest) (State.resetWith mode v)) = .next t ∧
        t.status = .running ∧ t.ic = 0 ∧ t.acc = v ∧ t.cycleMode = mode ∧ t.input = rest ∧ unlatched mode v t ∧
        (∀ a, t.mem.read a = (accepted xs ++ [w]).getD a 0) ∧
        t.trace = loaderTrace 0 xs ++ [.asked 99, .started])

/-- 70_reset_and_hazards.md R210: a rejected item is consumed and reported, and nothing else changes; the same address
is asked again, by the retry prompt that stands with the report (log entry 14). The Loader as steps is log entry 9, the
trace log entry 8. -/
def Obligations.LoadTimeRejectionChangesNoEngineState : Prop :=
  (∀ (s : State) (w : Int) (rest : List Int), s.status = .idle → s.loadAddr ≤ 99 → s.input = w :: rest →
    w ≠ -99999 → (w < -9999 ∨ 9999 < w) →
    step s = .next { s with input := rest, trace := s.trace ++ [.asked s.loadAddr, .rejected] }) ∧
  traceText false [.asked 0, .rejected, .asked 0] =
    [.prompt ['0', '0', ' ', '?', ' '], .line "*** Unknown instruction ***".toList, .retryPrompt]

/-- 10_state.md R34: the load port writes any Word to any address while IDLE, and is closed otherwise. -/
def Obligations.LoadPortOpenOnlyWhileIdle : Prop :=
  ∀ (s : State) (a : Nat) (w : Int),
    ((s.status = .idle ∧ a ≤ 99 ∧ -9999 ≤ w ∧ w ≤ 9999) →
      loadPort a w s = some { s with mem := s.mem.write a w }) ∧
    (¬ (s.status = .idle ∧ a ≤ 99 ∧ -9999 ≤ w ∧ w ≤ 9999) → loadPort a w s = none)

/-- 10_state.md R32, D11: success is 0, failure is one non-zero code for every fault kind, whatever EXIT_FAIL is (a
free value: it rests on no choice of the model). -/
def Obligations.ExitCodeTellsFailure : Prop :=
  Status.exitCode .stopped = some 0 ∧
  (∃ c : Int, c ≠ 0 ∧ ∀ k, Status.exitCode (.faulted k) = some c) ∧
  Status.exitCode .idle = none ∧ Status.exitCode .running = none

/-- 43_control_transfer.md R149: every cell of the dump is one sign and four zero-padded digits of its magnitude; the
sign of a zero is the spec's decision D21. -/
def Obligations.DumpCellIsSignAndFourDigits : Prop :=
  (∀ v : Int, -9999 ≤ v → v ≤ 9999 →
    ∃ a b c d : Nat, a ≤ 9 ∧ b ≤ 9 ∧ c ≤ 9 ∧ d ≤ 9 ∧ v.natAbs = 1000 * a + 100 * b + 10 * c + d ∧
      cellText v = [if v < 0 then '-' else '+', Char.ofNat (48 + a), Char.ofNat (48 + b), Char.ofNat (48 + c),
        Char.ofNat (48 + d)]) ∧
  cellText (-5) = ['-', '0', '0', '0', '5'] ∧ cellText 0 = ['+', '0', '0', '0', '0'] ∧
  (∀ (m : Memory) (r c : Nat), r ≤ 9 → c ≤ 9 →
    ((dumpRows m)[r]?.bind fun row => row[c]?) = some (cellText (m.read (10 * r + c))))

/-- 40_io.md R103, 10_state.md R36: a step that runs a WRITE shows the cell's Word on one line of its own, and after it only
the prompt of the item to come; the line is the plain decimal numeral: `-` for a negative value (the spec's decision D15),
digits without padding. -/
def Obligations.WriteIsShownOnALineOfItsOwn : Prop :=
  (∀ (s : State) (n : Nat), s.status = .running → fetch s = .ok (.write n) → n ≤ 99 →
    ∃ t, step s = .next t ∧
      t.console = s.console ++ .line (plainDecimal (s.mem.read n)) :: t.pendingPrompt) ∧
  (∀ v : Int, ∃ ds : List Nat, ds ≠ [] ∧ (∀ d ∈ ds, d ≤ 9) ∧ (ds.head? = some 0 → ds = [0]) ∧
    ds.foldl (fun n d => 10 * n + d) 0 = v.natAbs ∧
    plainDecimal v = (if v < 0 then ['-'] else []) ++ ds.map fun d => Char.ofNat (48 + d)) ∧
  plainDecimal 8 = ['8'] ∧ plainDecimal (-42) = ['-', '4', '2'] ∧ plainDecimal 0 = ['0']

/-- 70_reset_and_hazards.md R208, 40_io.md R104, 10_state.md R35: the prompt stands on the console before the item is taken,
and while the machine waits for it: the Loader's from reset on, READ's from the moment its cycle is next. That an item's
event enters the trace only when the item is taken is log entry 5. -/
def Obligations.PromptsStandBeforeTheirItems : Prop :=
  (∀ (mode : CycleMode) (v : Int), (State.resetWith mode v).console = [.prompt ['0', '0', ' ', '?', ' ']]) ∧
  (∀ s : State, s.status = .idle → s.loadAddr ≤ 99 → s.trace.getLast? ≠ some .rejected →
    [.prompt [Char.ofNat (48 + s.loadAddr / 10), Char.ofNat (48 + s.loadAddr % 10), ' ', '?', ' ']] <:+ s.console) ∧
  (∀ (s : State) (n : Nat), s.status = .running → fetch s = .ok (.read n) → [.prompt ['?', ' ']] <:+ s.console)

/-- 70_reset_and_hazards.md R210: the step that rejects an item shows the message and the retry prompt, whether or not more
input is there. That the retry prompt is the whole of the new request, also after rejections in a row, is the model's choice
(log entry 14). -/
def Obligations.RejectionIsShownAtOnce : Prop :=
  ∀ (s : State) (w : Int) (rest : List Int), s.status = .idle → s.loadAddr ≤ 99 → s.input = w :: rest →
    w ≠ -99999 → (w < -9999 ∨ 9999 < w) →
    ∃ t, step s = .next t ∧ t.console = s.console ++ [.line "*** Unknown instruction ***".toList, .retryPrompt]

/-- 60_exceptions.md R176 ("has already been delivered and stays delivered"): no step, of the Loader or of the engine,
takes back what the host has shown. -/
def Obligations.ConsoleOnlyGrows : Prop :=
  ∀ s t : State, step s = .next t → s.console <+: t.console
end

