-- ==== Sys2Proof/Laws/Decode.lean ====
section
/-! SUPPORT. Truncating division and the two decoded fields (00_scope.md R13; 30_encoding.md R71). -/

namespace Sys2Proof

@[simp] theorem memSize_eq : memSize = 100 := rfl

@[simp] theorem sentinel_eq : sentinel = -99999 := rfl

/-- The range of a Word in numerals. -/
@[simp] theorem inRange_iff {v : Int} : inRange v ↔ -9999 ≤ v ∧ v ≤ 9999 := Iff.rfl

/-- A recognised operand in numerals. -/
@[simp] theorem operandOk_iff {n : Nat} : operandOk n = true ↔ n < 100 := by
  simp [operandOk]

/-- The fields of a NOP in numerals. -/
theorem nopFieldsOk_iff {c d : Int} : nopFieldsOk c d = true ↔
    (-99 ≤ c ∧ c ≤ 99) ∧ (-99 ≤ d ∧ d ≤ 99) ∧ ((0 ≤ c ∧ 0 ≤ d) ∨ (c ≤ 0 ∧ d ≤ 0)) ∧ c ∉ recognisedOpcodes := by
  simp [nopFieldsOk, and_assoc]

/-- The spec's formula for truncating division is Lean's own division toward zero. -/
theorem tdiv_eq (a b : Int) : tdiv a b = Int.tdiv a b := by
  unfold tdiv signOf
  rcases a with a | a <;> rcases b with b | b <;> simp [Int.tdiv]

/-- The spec's formula for the remainder is Lean's own. -/
theorem tmod_eq (a b : Int) : tmod a b = Int.tmod a b := by
  unfold tmod
  rw [tdiv_eq]
  have := Int.mul_tdiv_add_tmod a b
  omega

/-- The fields of a non-negative integer are its decimal split. -/
theorem fields_of_nonneg {w : Int} (h : 0 ≤ w) : tdiv w 100 = w / 100 ∧ tmod w 100 = w % 100 := by
  rw [tdiv_eq, tmod_eq]
  exact ⟨Int.tdiv_eq_ediv_of_nonneg h, Int.tmod_eq_emod_of_nonneg h⟩

/-- The fields of a non-positive integer are the negated fields of its negation. -/
theorem fields_of_nonpos {w : Int} (h : w ≤ 0) : tdiv w 100 = -(-w / 100) ∧ tmod w 100 = -(-w % 100) := by
  have h1 : 0 ≤ -w := by omega
  have e := fields_of_nonneg h1
  have d : tdiv w 100 = -tdiv (-w) 100 := by rw [tdiv_eq, tdiv_eq, Int.neg_tdiv, Int.neg_neg]
  have m : tmod w 100 = -tmod (-w) 100 := by rw [tmod_eq, tmod_eq, Int.neg_tmod, Int.neg_neg]
  exact ⟨by rw [d, e.1], by rw [m, e.2]⟩

/-- A Word is put together from its two fields. -/
theorem fields_compose (w : Int) : w = tdiv w 100 * 100 + tmod w 100 := by
  unfold tmod; omega

/-- Two fields of one sign, the operand below 100 in magnitude, are the fields of the integer they make. -/
theorem fields_of_compose {c d : Int} (hd : -99 ≤ d ∧ d ≤ 99)
    (hs : (0 ≤ c ∧ 0 ≤ d) ∨ (c ≤ 0 ∧ d ≤ 0)) :
    tdiv (c * 100 + d) 100 = c ∧ tmod (c * 100 + d) 100 = d := by
  rcases hs with h | h
  · have e := fields_of_nonneg (w := c * 100 + d) (by omega)
    rw [e.1, e.2]; omega
  · have e := fields_of_nonpos (w := c * 100 + d) (by omega)
    rw [e.1, e.2]; omega

/-- The arm of an opcode has that opcode. -/
theorem dispatch_opcode (c d : Int) : (dispatch c d).opcode = c := by
  by_cases h : c ∈ recognisedOpcodes
  · simp only [recognisedOpcodes, List.mem_cons, List.not_mem_nil, or_false] at h
    rcases h with rfl | rfl | rfl | rfl | rfl | rfl | rfl | rfl | rfl | rfl | rfl | rfl <;> rfl
  · simp only [recognisedOpcodes, List.mem_cons, List.not_mem_nil, or_false, not_or] at h
    simp [dispatch, h, Instr.opcode]

/-- The arm of an opcode that is none of the twelve is the NOP, with both fields kept. -/
theorem dispatch_nop {c : Int} (d : Int) (h : c ∉ recognisedOpcodes) : dispatch c d = .nop c d := by
  simp only [recognisedOpcodes, List.mem_cons, List.not_mem_nil, or_false, not_or] at h
  simp [dispatch, h]

/-- Decoding a Word succeeds, with the dispatch of its fields (30_encoding.md R76). -/
theorem decode_word {w : Int} (h : inRange w) : decode w = .ok (dispatch (tdiv w 100) (tmod w 100)) := if_pos h

/-- Decoding succeeds on Words only. -/
theorem decode_ok_iff {w : Int} {i : Instr} :
    decode w = .ok i ↔ inRange w ∧ dispatch (tdiv w 100) (tmod w 100) = i := by
  unfold decode
  split
  · rename_i h
    exact ⟨fun e => ⟨h, by simpa using e⟩, fun e => by rw [e.2]⟩
  · rename_i h
    exact ⟨fun e => by simp at e, fun e => absurd e.1 h⟩

end Sys2Proof
end

