-- ==== Sys2Proof/Laws/State.lean ====
section
/-! SUPPORT. What each update of the state does to each field: one lemma per field per update. -/

namespace Sys2Proof.Machine

variable (s : State)

/-! ### setAcc -/

@[simp] theorem State.setAcc_mem (v : Int) : (s.setAcc v).mem = s.mem := rfl
@[simp] theorem State.setAcc_acc (v : Int) : (s.setAcc v).acc = v := rfl
@[simp] theorem State.setAcc_ic (v : Int) : (s.setAcc v).ic = s.ic := rfl
@[simp] theorem State.setAcc_ir (v : Int) : (s.setAcc v).ir = s.ir := rfl
@[simp] theorem State.setAcc_opc (v : Int) : (s.setAcc v).opc = s.opc := rfl
@[simp] theorem State.setAcc_opd (v : Int) : (s.setAcc v).opd = s.opd := rfl
@[simp] theorem State.setAcc_status (v : Int) : (s.setAcc v).status = s.status := rfl
@[simp] theorem State.setAcc_cycleMode (v : Int) : (s.setAcc v).cycleMode = s.cycleMode := rfl
@[simp] theorem State.setAcc_input (v : Int) : (s.setAcc v).input = s.input := rfl
@[simp] theorem State.setAcc_trace (v : Int) : (s.setAcc v).trace = s.trace := rfl
@[simp] theorem State.setAcc_loadAddr (v : Int) : (s.setAcc v).loadAddr = s.loadAddr := rfl

/-! ### setIc -/

@[simp] theorem State.setIc_mem (t : Nat) : (s.setIc t).mem = s.mem := rfl
@[simp] theorem State.setIc_acc (t : Nat) : (s.setIc t).acc = s.acc := rfl
@[simp] theorem State.setIc_ic (t : Nat) : (s.setIc t).ic = t := rfl
@[simp] theorem State.setIc_ir (t : Nat) : (s.setIc t).ir = s.ir := rfl
@[simp] theorem State.setIc_opc (t : Nat) : (s.setIc t).opc = s.opc := rfl
@[simp] theorem State.setIc_opd (t : Nat) : (s.setIc t).opd = s.opd := rfl
@[simp] theorem State.setIc_status (t : Nat) : (s.setIc t).status = s.status := rfl
@[simp] theorem State.setIc_cycleMode (t : Nat) : (s.setIc t).cycleMode = s.cycleMode := rfl
@[simp] theorem State.setIc_input (t : Nat) : (s.setIc t).input = s.input := rfl
@[simp] theorem State.setIc_trace (t : Nat) : (s.setIc t).trace = s.trace := rfl
@[simp] theorem State.setIc_loadAddr (t : Nat) : (s.setIc t).loadAddr = s.loadAddr := rfl

/-! ### setStatus -/

@[simp] theorem State.setStatus_mem (st : Status) : (s.setStatus st).mem = s.mem := rfl
@[simp] theorem State.setStatus_acc (st : Status) : (s.setStatus st).acc = s.acc := rfl
@[simp] theorem State.setStatus_ic (st : Status) : (s.setStatus st).ic = s.ic := rfl
@[simp] theorem State.setStatus_ir (st : Status) : (s.setStatus st).ir = s.ir := rfl
@[simp] theorem State.setStatus_opc (st : Status) : (s.setStatus st).opc = s.opc := rfl
@[simp] theorem State.setStatus_opd (st : Status) : (s.setStatus st).opd = s.opd := rfl
@[simp] theorem State.setStatus_status (st : Status) : (s.setStatus st).status = st := rfl
@[simp] theorem State.setStatus_cycleMode (st : Status) : (s.setStatus st).cycleMode = s.cycleMode := rfl
@[simp] theorem State.setStatus_input (st : Status) : (s.setStatus st).input = s.input := rfl
@[simp] theorem State.setStatus_trace (st : Status) : (s.setStatus st).trace = s.trace := rfl
@[simp] theorem State.setStatus_loadAddr (st : Status) : (s.setStatus st).loadAddr = s.loadAddr := rfl

/-! ### setCell -/

@[simp] theorem State.setCell_mem (a : Nat) (v : Int) : (s.setCell a v).mem = s.mem.write a v := rfl
@[simp] theorem State.setCell_acc (a : Nat) (v : Int) : (s.setCell a v).acc = s.acc := rfl
@[simp] theorem State.setCell_ic (a : Nat) (v : Int) : (s.setCell a v).ic = s.ic := rfl
@[simp] theorem State.setCell_ir (a : Nat) (v : Int) : (s.setCell a v).ir = s.ir := rfl
@[simp] theorem State.setCell_opc (a : Nat) (v : Int) : (s.setCell a v).opc = s.opc := rfl
@[simp] theorem State.setCell_opd (a : Nat) (v : Int) : (s.setCell a v).opd = s.opd := rfl
@[simp] theorem State.setCell_status (a : Nat) (v : Int) : (s.setCell a v).status = s.status := rfl
@[simp] theorem State.setCell_cycleMode (a : Nat) (v : Int) : (s.setCell a v).cycleMode = s.cycleMode := rfl
@[simp] theorem State.setCell_input (a : Nat) (v : Int) : (s.setCell a v).input = s.input := rfl
@[simp] theorem State.setCell_trace (a : Nat) (v : Int) : (s.setCell a v).trace = s.trace := rfl
@[simp] theorem State.setCell_loadAddr (a : Nat) (v : Int) : (s.setCell a v).loadAddr = s.loadAddr := rfl

/-! ### setInput -/

@[simp] theorem State.setInput_mem (items : List Int) : (s.setInput items).mem = s.mem := rfl
@[simp] theorem State.setInput_acc (items : List Int) : (s.setInput items).acc = s.acc := rfl
@[simp] theorem State.setInput_ic (items : List Int) : (s.setInput items).ic = s.ic := rfl
@[simp] theorem State.setInput_ir (items : List Int) : (s.setInput items).ir = s.ir := rfl
@[simp] theorem State.setInput_opc (items : List Int) : (s.setInput items).opc = s.opc := rfl
@[simp] theorem State.setInput_opd (items : List Int) : (s.setInput items).opd = s.opd := rfl
@[simp] theorem State.setInput_status (items : List Int) : (s.setInput items).status = s.status := rfl
@[simp] theorem State.setInput_cycleMode (items : List Int) : (s.setInput items).cycleMode = s.cycleMode := rfl
@[simp] theorem State.setInput_input (items : List Int) : (s.setInput items).input = items := rfl
@[simp] theorem State.setInput_trace (items : List Int) : (s.setInput items).trace = s.trace := rfl
@[simp] theorem State.setInput_loadAddr (items : List Int) : (s.setInput items).loadAddr = s.loadAddr := rfl

/-! ### emit -/

@[simp] theorem State.emit_mem (e : Event) : (s.emit e).mem = s.mem := rfl
@[simp] theorem State.emit_acc (e : Event) : (s.emit e).acc = s.acc := rfl
@[simp] theorem State.emit_ic (e : Event) : (s.emit e).ic = s.ic := rfl
@[simp] theorem State.emit_ir (e : Event) : (s.emit e).ir = s.ir := rfl
@[simp] theorem State.emit_opc (e : Event) : (s.emit e).opc = s.opc := rfl
@[simp] theorem State.emit_opd (e : Event) : (s.emit e).opd = s.opd := rfl
@[simp] theorem State.emit_status (e : Event) : (s.emit e).status = s.status := rfl
@[simp] theorem State.emit_cycleMode (e : Event) : (s.emit e).cycleMode = s.cycleMode := rfl
@[simp] theorem State.emit_input (e : Event) : (s.emit e).input = s.input := rfl
@[simp] theorem State.emit_trace (e : Event) : (s.emit e).trace = s.trace ++ [e] := rfl
@[simp] theorem State.emit_loadAddr (e : Event) : (s.emit e).loadAddr = s.loadAddr := rfl

/-! ### setLoadAddr -/

@[simp] theorem State.setLoadAddr_mem (a : Nat) : (s.setLoadAddr a).mem = s.mem := rfl
@[simp] theorem State.setLoadAddr_acc (a : Nat) : (s.setLoadAddr a).acc = s.acc := rfl
@[simp] theorem State.setLoadAddr_ic (a : Nat) : (s.setLoadAddr a).ic = s.ic := rfl
@[simp] theorem State.setLoadAddr_ir (a : Nat) : (s.setLoadAddr a).ir = s.ir := rfl
@[simp] theorem State.setLoadAddr_opc (a : Nat) : (s.setLoadAddr a).opc = s.opc := rfl
@[simp] theorem State.setLoadAddr_opd (a : Nat) : (s.setLoadAddr a).opd = s.opd := rfl
@[simp] theorem State.setLoadAddr_status (a : Nat) : (s.setLoadAddr a).status = s.status := rfl
@[simp] theorem State.setLoadAddr_cycleMode (a : Nat) : (s.setLoadAddr a).cycleMode = s.cycleMode := rfl
@[simp] theorem State.setLoadAddr_input (a : Nat) : (s.setLoadAddr a).input = s.input := rfl
@[simp] theorem State.setLoadAddr_trace (a : Nat) : (s.setLoadAddr a).trace = s.trace := rfl
@[simp] theorem State.setLoadAddr_loadAddr (a : Nat) : (s.setLoadAddr a).loadAddr = a := rfl

/-! ### latch -/

@[simp] theorem State.latch_mem (w : Int) : (s.latch w).mem = s.mem := rfl
@[simp] theorem State.latch_acc (w : Int) : (s.latch w).acc = s.acc := rfl
@[simp] theorem State.latch_ic (w : Int) : (s.latch w).ic = s.ic := rfl
@[simp] theorem State.latch_ir (w : Int) : (s.latch w).ir = w := rfl
@[simp] theorem State.latch_opc (w : Int) : (s.latch w).opc = tdiv w 100 := rfl
@[simp] theorem State.latch_opd (w : Int) : (s.latch w).opd = tmod w 100 := rfl
@[simp] theorem State.latch_status (w : Int) : (s.latch w).status = s.status := rfl
@[simp] theorem State.latch_cycleMode (w : Int) : (s.latch w).cycleMode = s.cycleMode := rfl
@[simp] theorem State.latch_input (w : Int) : (s.latch w).input = s.input := rfl
@[simp] theorem State.latch_trace (w : Int) : (s.latch w).trace = s.trace := rfl
@[simp] theorem State.latch_loadAddr (w : Int) : (s.latch w).loadAddr = s.loadAddr := rfl

/-! ### endTest: only the status can change (10_state.md R26) -/

@[simp] theorem State.endTest_mem : s.endTest.mem = s.mem := by unfold State.endTest; split <;> rfl
@[simp] theorem State.endTest_acc : s.endTest.acc = s.acc := by unfold State.endTest; split <;> rfl
@[simp] theorem State.endTest_ic : s.endTest.ic = s.ic := by unfold State.endTest; split <;> rfl
@[simp] theorem State.endTest_ir : s.endTest.ir = s.ir := by unfold State.endTest; split <;> rfl
@[simp] theorem State.endTest_opc : s.endTest.opc = s.opc := by unfold State.endTest; split <;> rfl
@[simp] theorem State.endTest_opd : s.endTest.opd = s.opd := by unfold State.endTest; split <;> rfl
theorem State.endTest_status :
    s.endTest.status = if s.ic = 100 then .stopped else s.status := by
  unfold State.endTest; split <;> simp
@[simp] theorem State.endTest_cycleMode : s.endTest.cycleMode = s.cycleMode := by unfold State.endTest; split <;> rfl
@[simp] theorem State.endTest_input : s.endTest.input = s.input := by unfold State.endTest; split <;> rfl
@[simp] theorem State.endTest_trace : s.endTest.trace = s.trace := by unfold State.endTest; split <;> rfl
@[simp] theorem State.endTest_loadAddr : s.endTest.loadAddr = s.loadAddr := by unfold State.endTest; split <;> rfl

/-! ### The channels as projections of the trace (10_state.md R36, R37) -/

@[simp] theorem State.out_emit_out (w : Int) : (s.emit (.out w)).out = s.out ++ [w] := by
  simp [State.out]

@[simp] theorem State.out_emit_readPrompt : (s.emit .readPrompt).out = s.out := by simp [State.out]

@[simp] theorem State.out_emit_diag (d : Snapshot) : (s.emit (.diag d)).out = s.out := by simp [State.out]

@[simp] theorem State.diag_emit_diag (d : Snapshot) : (s.emit (.diag d)).diag = s.diag ++ [d] := by
  simp [State.diag]

@[simp] theorem State.diag_emit_readPrompt : (s.emit .readPrompt).diag = s.diag := by simp [State.diag]

@[simp] theorem State.diag_emit_out (w : Int) : (s.emit (.out w)).diag = s.diag := by simp [State.diag]

/-- Equal traces give equal channels. -/
theorem State.channels_congr {s t : State} (h : t.trace = s.trace) : t.out = s.out ∧ t.diag = s.diag := by
  simp [State.out, State.diag, h]

end Sys2Proof.Machine
end

