-- ==== Sys2Proof/Laws/Console.lean ====
section
/-! SUPPORT. The text of a growing trace, and what the host shows in each status. -/

namespace Sys2Proof.Machine

variable {s : State}

/-- The text of a trace with one event more is the text before it, then that event's. -/
theorem traceText_append (e : Event) : ∀ (retrying : Bool) (es : List Event),
    traceText retrying (es ++ [e]) =
      traceText retrying es ++ eventText (es.getLast?.elim retrying fun l => decide (l = .rejected)) e
  | _, [] => by simp [traceText]
  | retrying, [d] => by simp [traceText]
  | retrying, c :: d :: es => by
    rw [List.cons_append, traceText, traceText, traceText_append e _ (d :: es), List.getLast?_cons_cons,
      List.append_assoc, List.getLast?_eq_getLast_of_ne_nil (List.cons_ne_nil d es)]
    rfl

/-- Emitting an event adds its text and nothing else. -/
theorem traceText_emit (e : Event) :
    traceText false (s.emit e).trace = traceText false s.trace ++ eventText s.retrying e := by
  rw [State.emit_trace, traceText_append]
  unfold State.retrying
  cases s.trace.getLast? <;> simp

@[simp] theorem State.emit_retrying (e : Event) : (s.emit e).retrying = decide (e = .rejected) := by
  simp [State.retrying]

@[simp] theorem State.setInput_retrying (items : List Int) : (s.setInput items).retrying = s.retrying := rfl

theorem State.pendingPrompt_idle (h : s.status = .idle) (room : s.loadAddr < 100) :
    s.pendingPrompt = eventText s.retrying (.asked s.loadAddr) := by
  unfold State.pendingPrompt
  rw [h]
  exact if_pos room

theorem State.pendingPrompt_full (h : s.status = .idle) (filled : 100 ≤ s.loadAddr) : s.pendingPrompt = [] := by
  unfold State.pendingPrompt
  rw [h]
  exact if_neg (Nat.not_lt.2 filled)

theorem State.pendingPrompt_read {n : Nat} (h : s.status = .running) (hf : fetch s = .ok (.read n)) :
    s.pendingPrompt = [readPromptText] := by
  unfold State.pendingPrompt
  rw [h, hf]

/-- A cycle of any instruction but READ is preceded by no prompt. -/
theorem State.pendingPrompt_other {i : Instr} (h : s.status = .running) (hf : fetch s = .ok i)
    (hi : ∀ n, i ≠ .read n) : s.pendingPrompt = [] := by
  unfold State.pendingPrompt
  rw [h, hf]
  cases i <;> first | rfl | exact absurd rfl (hi _)

theorem State.pendingPrompt_stopped (h : s.status = .stopped) : s.pendingPrompt = [] := by
  unfold State.pendingPrompt
  rw [h]

theorem State.pendingPrompt_faulted {k : FaultKind} (h : s.status = .faulted k) : s.pendingPrompt = [] := by
  unfold State.pendingPrompt
  rw [h]

/-- Until a fault, the host has shown the trace's text and the prompt of the item to come. -/
theorem State.console_of_no_fault (h : ∀ k, s.status ≠ .faulted k) :
    s.console = traceText false s.trace ++ s.pendingPrompt := by
  unfold State.console
  cases hs : s.status with
  | faulted k => exact absurd hs (h k)
  | idle => simp [statusText]
  | running => simp [statusText]
  | stopped => simp [statusText]

end Sys2Proof.Machine
end

