-- ==== Sys2Proof/Laws/Loader.lean ====
section
/-! SUPPORT. Everything one turn of the Loader's loop can do (70_reset_and_hazards.md R208 to R213), and the first
steps of a run. -/

namespace Sys2Proof.Machine

variable {s t : State}

theorem startSignal_idle (h : s.status = .idle) :
    startSignal s = (s.setStatus .running).emit .started := if_pos h

/-- `LoaderCase s t`: one turn of the Loader at `s` answers `t`, and why. -/
inductive LoaderCase (s : State) : State → Prop where
  | waits (room : s.loadAddr < 100) (empty : s.input = []) : LoaderCase s s
  | full (filled : 100 ≤ s.loadAddr) : LoaderCase s (startSignal s)
  | ends (room : s.loadAddr < 100) (rest : List Int) (head : s.input = sentinel :: rest) :
      LoaderCase s (startSignal (((s.setInput rest).emit (.asked s.loadAddr)).setCell s.loadAddr 0))
  | stores (room : s.loadAddr < 100) (w : Int) (rest : List Int) (head : s.input = w :: rest) (word : inRange w) :
      LoaderCase s ((((s.setInput rest).emit (.asked s.loadAddr)).setCell s.loadAddr w).setLoadAddr
        (s.loadAddr + 1))
  | rejects (room : s.loadAddr < 100) (w : Int) (rest : List Int) (head : s.input = w :: rest)
      (notSentinel : w ≠ sentinel) (out : ¬ inRange w) :
      LoaderCase s (((s.setInput rest).emit (.asked s.loadAddr)).emit .rejected)

/-- The Loader always answers a next state, one of the cases. -/
theorem loaderStep_next : ∃ t, loaderStep s = .next t ∧ LoaderCase s t := by
  unfold loaderStep
  split
  · rename_i room
    cases hin : s.input with
    | nil => exact ⟨s, rfl, .waits room hin⟩
    | cons w rest =>
      dsimp only
      split
      · rename_i hv
        split
        · rename_i hw
          subst hw
          exact ⟨_, rfl, .ends room rest hin⟩
        · rename_i hw
          have hr : inRange w := by simpa [validator, hw] using hv
          exact ⟨_, rfl, .stores room w rest hin hr⟩
      · rename_i hv
        simp only [validator, Bool.or_eq_true, decide_eq_true_eq, not_or] at hv
        exact ⟨_, rfl, .rejects room w rest hin hv.1 hv.2⟩
  · rename_i room
    exact ⟨_, rfl, .full (Nat.not_lt.1 room)⟩

theorem step_idle (h : s.status = .idle) : step s = loaderStep s := by unfold step; rw [h]

theorem step_running (h : s.status = .running) : step s = runCycle s := by unfold step; rw [h]

theorem step_stopped (h : s.status = .stopped) : step s = .next s := by unfold step; rw [h]

theorem step_faulted {k : FaultKind} (h : s.status = .faulted k) : step s = .next s := by unfold step; rw [h]

theorem runSteps_next {k : Nat} (h : step s = .next t) : runSteps (k + 1) s = runSteps k t := by
  simp [runSteps, h]

/-- A run of `j + k` steps is a run of `j` and then of `k`. -/
theorem runSteps_add : ∀ (j k : Nat) {s t : State}, runSteps j s = .next t → runSteps (j + k) s = runSteps k t
  | 0, k, s, t, h => by
    cases h
    rw [Nat.zero_add]
  | j + 1, k, s, t, h => by
    cases hu : step s with
    | next u =>
      rw [runSteps_next hu] at h
      rw [Nat.add_right_comm, runSteps_next hu, runSteps_add j k h]
    | fault f => simp [runSteps, hu] at h
    | refused r => simp [runSteps, hu] at h

end Sys2Proof.Machine
end

