-- ==== Sys2Proof/Laws/Memory.lean ====
section
/-! SUPPORT. Memory: the canonical form is kept by the one operation that writes, and a write is read back at its own
address and nowhere else (20_memory.md R51, R60). -/

namespace Sys2Proof.Machine

@[simp] theorem Memory.read_nil (a : Nat) : Memory.read [] a = 0 := rfl

theorem Memory.read_cons (b : Nat) (u : Int) (rest : Memory) (a : Nat) :
    Memory.read ((b, u) :: rest) a = if a = b then u else Memory.read rest a := rfl

/-- The form from `lo`, entry by entry. -/
theorem Memory.wfFrom_cons (lo a : Nat) (v : Int) (rest : Memory) :
    Memory.wfFrom lo ((a, v) :: rest) = true ↔
      lo ≤ a ∧ a < 100 ∧ v ≠ 0 ∧ Memory.wfFrom (a + 1) rest = true := by
  simp only [Memory.wfFrom, Bool.and_eq_true, decide_eq_true_eq, and_assoc]
  exact Iff.rfl

/-- A list in form from `lo` is in form from anything lower. -/
theorem Memory.wfFrom_mono {lo hi : Nat} (h : lo ≤ hi) :
    ∀ {m : Memory}, Memory.wfFrom hi m = true → Memory.wfFrom lo m = true
  | [], _ => rfl
  | (a, v) :: rest, hm => by
    rw [Memory.wfFrom_cons] at hm ⊢
    exact ⟨by omega, hm.2⟩

/-- Below its first address a list in form reads as unlisted. -/
theorem Memory.read_below : ∀ {m : Memory} {lo a : Nat}, Memory.wfFrom lo m = true → a < lo → m.read a = 0
  | [], _, _, _, _ => rfl
  | (b, u) :: rest, lo, a, hm, ha => by
    rw [Memory.wfFrom_cons] at hm
    rw [Memory.read_cons, if_neg (by omega)]
    exact Memory.read_below hm.2.2.2 (by omega)

/-- A write keeps the form from any bound at or below its address. -/
theorem Memory.wfFrom_write : ∀ {m : Memory} {lo a : Nat} (v : Int),
    Memory.wfFrom lo m = true → lo ≤ a → a < 100 → Memory.wfFrom lo (m.write a v) = true
  | [], lo, a, v, _, hlo, ha => by
    unfold Memory.write
    split
    · rfl
    · rename_i hv
      exact (Memory.wfFrom_cons ..).2 ⟨hlo, ha, hv, rfl⟩
  | (b, u) :: rest, lo, a, v, hm, hlo, ha => by
    have hc := (Memory.wfFrom_cons ..).1 hm
    unfold Memory.write
    split
    · rename_i hab
      split
      · exact hm
      · rename_i hv
        exact (Memory.wfFrom_cons ..).2
          ⟨hlo, ha, hv, (Memory.wfFrom_cons ..).2 ⟨by omega, hc.2.1, hc.2.2.1, hc.2.2.2⟩⟩
    · split
      · rename_i hab
        subst hab
        split
        · exact Memory.wfFrom_mono (by omega) hc.2.2.2
        · rename_i hv
          exact (Memory.wfFrom_cons ..).2 ⟨hlo, ha, hv, hc.2.2.2⟩
      · exact (Memory.wfFrom_cons ..).2
          ⟨hc.1, hc.2.1, hc.2.2.1, Memory.wfFrom_write v hc.2.2.2 (by omega) ha⟩

/-- Every memory operation keeps the canonical form: `write` is the only one. -/
theorem Memory.wf_write {m : Memory} {a : Nat} (v : Int) (hm : m.wf = true) (ha : a < 100) :
    (m.write a v).wf = true :=
  Memory.wfFrom_write v hm (Nat.zero_le a) ha

/-- Reading after a write, from any bound. -/
theorem Memory.read_write_from : ∀ {m : Memory} {lo : Nat} (a : Nat) (v : Int) (b : Nat),
    Memory.wfFrom lo m = true → (m.write a v).read b = if b = a then v else m.read b
  | [], _, a, v, b, _ => by
    by_cases hv : v = 0 <;> simp [Memory.write, Memory.unlisted, Memory.read_cons, hv]
  | (c, u) :: rest, lo, a, v, b, hm => by
    have hc := (Memory.wfFrom_cons ..).1 hm
    have hlow : ∀ d, d ≤ c → Memory.read rest d = 0 := fun d hd =>
      Memory.read_below hc.2.2.2 (by omega)
    unfold Memory.write
    split
    · rename_i hac
      split
      · rename_i hv
        simp only [Memory.unlisted] at hv
        by_cases hba : b = a
        · subst hba
          rw [Memory.read_cons, if_neg (by omega), if_pos rfl, hv, hlow b (by omega)]
        · rw [if_neg hba]
      · rw [Memory.read_cons]
    · split
      · rename_i hac
        subst hac
        split
        · rename_i hv
          simp only [Memory.unlisted] at hv
          by_cases hba : b = a
          · subst hba
            rw [if_pos rfl, hv, hlow b (by omega)]
          · rw [if_neg hba, Memory.read_cons, if_neg hba]
        · by_cases hba : b = a <;> simp [Memory.read_cons, hba]
      · rename_i h1 h2
        rw [Memory.read_cons, Memory.read_cons, Memory.read_write_from a v b hc.2.2.2]
        by_cases hbc : b = c
        · subst hbc
          rw [if_pos rfl, if_pos rfl, if_neg (Ne.symm h2)]
        · rw [if_neg hbc, if_neg hbc]

/-- A write is read back at its own address, and every other cell is as before (20_memory.md R51). -/
theorem Memory.read_write {m : Memory} (hm : m.wf = true) (a : Nat) (v : Int) (b : Nat) :
    (m.write a v).read b = if b = a then v else m.read b :=
  Memory.read_write_from a v b hm

/-- Reading outside the address space of a memory in form gives what an unlisted cell reads as. -/
theorem Memory.read_outside : ∀ {m : Memory} {lo a : Nat}, Memory.wfFrom lo m = true → 100 ≤ a → m.read a = 0
  | [], _, _, _, _ => rfl
  | (b, u) :: rest, lo, a, hm, ha => by
    rw [Memory.wfFrom_cons] at hm
    rw [Memory.read_cons, if_neg (by omega)]
    exact Memory.read_outside hm.2.2.2 ha

/-- The memory of every reset state is in form. -/
theorem State.resetWith_mem_wf (mode : CycleMode) (v : Int) : (State.resetWith mode v).mem.wf = true := rfl

end Sys2Proof.Machine
end

