-- ==== Sys2Proof/Laws/Ops.lean ====
section
/-! SUPPORT. What each shared operation can do, said once: the equation where it goes on, and the inversion "if it
answers next". `CycleCase` collects, instruction by instruction, every next state a cycle can answer. -/

namespace Sys2Proof.Machine

variable {s t : State}

/-! ### The fields of a fetched and of an advanced state -/

@[simp] theorem State.fetched_mem : s.fetched.mem = s.mem := rfl
@[simp] theorem State.fetched_acc : s.fetched.acc = s.acc := rfl
@[simp] theorem State.fetched_ic : s.fetched.ic = s.ic := rfl
@[simp] theorem State.fetched_ir : s.fetched.ir = s.mem.read s.ic := rfl
@[simp] theorem State.fetched_opc : s.fetched.opc = tdiv (s.mem.read s.ic) 100 := rfl
@[simp] theorem State.fetched_opd : s.fetched.opd = tmod (s.mem.read s.ic) 100 := rfl
@[simp] theorem State.fetched_status : s.fetched.status = s.status := rfl
@[simp] theorem State.fetched_cycleMode : s.fetched.cycleMode = s.cycleMode := rfl
@[simp] theorem State.fetched_input : s.fetched.input = s.input := rfl
@[simp] theorem State.fetched_trace : s.fetched.trace = s.trace := rfl
@[simp] theorem State.fetched_loadAddr : s.fetched.loadAddr = s.loadAddr := rfl

@[simp] theorem State.advanced_mem : s.advanced.mem = s.mem := by simp [State.advanced]
@[simp] theorem State.advanced_acc : s.advanced.acc = s.acc := by simp [State.advanced]
@[simp] theorem State.advanced_ic : s.advanced.ic = s.ic + 1 := by simp [State.advanced]
@[simp] theorem State.advanced_ir : s.advanced.ir = s.ir := by simp [State.advanced]
@[simp] theorem State.advanced_opc : s.advanced.opc = s.opc := by simp [State.advanced]
@[simp] theorem State.advanced_opd : s.advanced.opd = s.opd := by simp [State.advanced]
@[simp] theorem State.advanced_cycleMode : s.advanced.cycleMode = s.cycleMode := by simp [State.advanced]
@[simp] theorem State.advanced_input : s.advanced.input = s.input := by simp [State.advanced]
@[simp] theorem State.advanced_trace : s.advanced.trace = s.trace := by simp [State.advanced]
@[simp] theorem State.advanced_loadAddr : s.advanced.loadAddr = s.loadAddr := by simp [State.advanced]

/-- Advancing stops the run exactly when the counter was 99 (10_state.md R26). -/
theorem State.advanced_status : s.advanced.status = if s.ic = 99 then .stopped else s.status := by
  have h : s.ic + 1 = 100 ↔ s.ic = 99 := by omega
  simp [State.advanced, State.endTest_status, h]

/-! ### The shared operations -/

theorem withFetched_of_lt {arm : State → Result} (h : s.ic < 100) : withFetched s arm = arm s.fetched := if_pos h

theorem withFetched_next {arm : State → Result} (h : withFetched s arm = .next t) :
    s.ic < 100 ∧ arm s.fetched = .next t := by
  unfold withFetched at h
  split at h
  · exact ⟨‹_›, h⟩
  · cases h

theorem withWord_of_lt {n : Nat} {use : Int → Result} (h : n < 100) :
    withWord n s use = use (s.mem.read n) := if_pos h

theorem withWord_next {n : Nat} {use : Int → Result} (h : withWord n s use = .next t) :
    n < 100 ∧ use (s.mem.read n) = .next t := by
  unfold withWord at h
  split at h
  · exact ⟨‹_›, h⟩
  · cases h

theorem completeCycle_next (h : completeCycle s = .next t) : t = s.advanced := by cases h; rfl

theorem raiseFault_next {k : FaultKind} (h : raiseFault k s = .next t) : t = s.setStatus (.faulted k) := by
  cases h; rfl

theorem storeWord_of_lt {n : Nat} {v : Int} (h : n < 100) :
    storeWord n v s = completeCycle (s.setCell n v) := if_pos h

theorem storeWord_next {n : Nat} {v : Int} (h : storeWord n v s = .next t) :
    n < 100 ∧ t = (s.setCell n v).advanced := by
  unfold storeWord at h
  split at h
  · exact ⟨‹_›, completeCycle_next h⟩
  · cases h

/-- The next state of a taken branch (43_control_transfer.md R140). -/
def State.branched (s : State) (k : Nat) : State :=
  match s.cycleMode with
  | .strictLegacy => (s.setIc k).advanced
  | .corrected => (s.setIc k).endTest

theorem takeBranch_eq (k : Nat) : takeBranch k s = .next (s.branched k) := by
  unfold takeBranch State.branched
  cases s.cycleMode <;> rfl

theorem branchIf_of_lt {taken : Bool} {k : Nat} (h : k < 100) :
    branchIf taken k s = if taken then takeBranch k s else completeCycle s := if_pos h

theorem branchIf_next {taken : Bool} {k : Nat} (h : branchIf taken k s = .next t) :
    k < 100 ∧ ((taken = true ∧ t = s.branched k) ∨ (taken = false ∧ t = s.advanced)) := by
  unfold branchIf at h
  split at h
  · refine ⟨‹_›, ?_⟩
    cases taken
    · exact .inr ⟨rfl, completeCycle_next h⟩
    · rw [if_pos rfl, takeBranch_eq] at h
      cases h
      exact .inl ⟨rfl, rfl⟩
  · cases h

theorem writeChecked_of_inRange {r : Int} (h : inRange r) : writeChecked r s = completeCycle (s.setAcc r) := if_pos h

theorem writeChecked_of_outOfRange {r : Int} (h : ¬ inRange r) : writeChecked r s = raiseFault .accRange s := if_neg h

theorem writeChecked_next {r : Int} (h : writeChecked r s = .next t) :
    (inRange r ∧ t = (s.setAcc r).advanced) ∨ (¬ inRange r ∧ t = s.setStatus (.faulted .accRange)) := by
  unfold writeChecked at h
  split at h
  · exact .inl ⟨‹_›, completeCycle_next h⟩
  · exact .inr ⟨‹_›, raiseFault_next h⟩

theorem writeQuotient_of_ne {d : Int} (h : d ≠ 0) :
    writeQuotient d s = completeCycle (s.setAcc (tdiv s.acc d)) := if_neg h

theorem writeQuotient_zero : writeQuotient 0 s = raiseFault .divZero s := rfl

theorem writeQuotient_next {d : Int} (h : writeQuotient d s = .next t) :
    (d ≠ 0 ∧ t = (s.setAcc (tdiv s.acc d)).advanced) ∨ (d = 0 ∧ t = s.setStatus (.faulted .divZero)) := by
  unfold writeQuotient at h
  split at h
  · exact .inr ⟨‹_›, raiseFault_next h⟩
  · exact .inl ⟨‹_›, completeCycle_next h⟩

/-! ### Every next state of a cycle -/

/-- `CycleCase s i t`: the cycle of `i` at `s` answers `t`, and why. -/
inductive CycleCase (s : State) : Instr → State → Prop where
  | readWaits (n : Nat) (empty : s.input = []) : CycleCase s (.read n) s
  | readStores (n : Nat) (v : Int) (rest : List Int) (head : s.input = v :: rest) (word : inRange v)
      (addr : n < 100) :
      CycleCase s (.read n) ((((s.fetched.setInput rest).emit .readPrompt).setCell n v).advanced)
  | readFaults (n : Nat) (v : Int) (rest : List Int) (head : s.input = v :: rest) (out : ¬ inRange v) :
      CycleCase s (.read n) (((s.fetched.setInput rest).emit .readPrompt).setStatus (.faulted .readRange))
  | write (n : Nat) (addr : n < 100) :
      CycleCase s (.write n) ((s.fetched.emit (.out (s.mem.read n))).advanced)
  | load (n : Nat) (addr : n < 100) : CycleCase s (.load n) ((s.fetched.setAcc (s.mem.read n)).advanced)
  | store (n : Nat) (addr : n < 100) : CycleCase s (.store n) ((s.fetched.setCell n s.acc).advanced)
  | add (n : Nat) (addr : n < 100) (word : inRange (s.acc + s.mem.read n)) :
      CycleCase s (.add n) ((s.fetched.setAcc (s.acc + s.mem.read n)).advanced)
  | addFaults (n : Nat) (addr : n < 100) (out : ¬ inRange (s.acc + s.mem.read n)) :
      CycleCase s (.add n) (s.fetched.setStatus (.faulted .accRange))
  | subtract (n : Nat) (addr : n < 100) (word : inRange (s.acc - s.mem.read n)) :
      CycleCase s (.subtract n) ((s.fetched.setAcc (s.acc - s.mem.read n)).advanced)
  | subtractFaults (n : Nat) (addr : n < 100) (out : ¬ inRange (s.acc - s.mem.read n)) :
      CycleCase s (.subtract n) (s.fetched.setStatus (.faulted .accRange))
  | divide (n : Nat) (addr : n < 100) (nonzero : s.mem.read n ≠ 0) :
      CycleCase s (.divide n) ((s.fetched.setAcc (tdiv s.acc (s.mem.read n))).advanced)
  | divideFaults (n : Nat) (addr : n < 100) (zero : s.mem.read n = 0) :
      CycleCase s (.divide n) (s.fetched.setStatus (.faulted .divZero))
  | multiply (n : Nat) (addr : n < 100) (word : inRange (s.acc * s.mem.read n)) :
      CycleCase s (.multiply n) ((s.fetched.setAcc (s.acc * s.mem.read n)).advanced)
  | multiplyFaults (n : Nat) (addr : n < 100) (out : ¬ inRange (s.acc * s.mem.read n)) :
      CycleCase s (.multiply n) (s.fetched.setStatus (.faulted .accRange))
  | branch (k : Nat) (addr : k < 100) : CycleCase s (.branch k) (s.fetched.branched k)
  | branchnegTaken (k : Nat) (addr : k < 100) (neg : s.acc < 0) :
      CycleCase s (.branchneg k) (s.fetched.branched k)
  | branchnegNot (k : Nat) (addr : k < 100) (nonneg : 0 ≤ s.acc) : CycleCase s (.branchneg k) s.fetched.advanced
  | branchzeroTaken (k : Nat) (addr : k < 100) (zero : s.acc = 0) :
      CycleCase s (.branchzero k) (s.fetched.branched k)
  | branchzeroNot (k : Nat) (addr : k < 100) (nonzero : s.acc ≠ 0) : CycleCase s (.branchzero k) s.fetched.advanced
  | haltLegacy (n : Nat) (mode : s.cycleMode = .strictLegacy) :
      CycleCase s (.halt n) ((s.fetched.emit (.diag s.fetched.snapshot)).advanced)
  | haltCorrected (n : Nat) (mode : s.cycleMode = .corrected) :
      CycleCase s (.halt n) ((s.fetched.emit (.diag s.fetched.snapshot)).setStatus .stopped)
  | nop (opc opd : Int) : CycleCase s (.nop opc opd) s.fetched.advanced

theorem execRead_next {n : Nat} (h : execRead n s = .next t) : s.ic < 100 ∧ CycleCase s (.read n) t := by
  obtain ⟨hic, h⟩ := withFetched_next h
  refine ⟨hic, ?_⟩
  cases hin : s.input with
  | nil =>
    rw [State.fetched_input, hin] at h
    cases h
    exact .readWaits n hin
  | cons v rest =>
    simp only [State.fetched_input, hin] at h
    split at h
    · obtain ⟨hn, rfl⟩ := storeWord_next h
      exact .readStores n v rest hin ‹_› hn
    · cases raiseFault_next h
      exact .readFaults n v rest hin ‹_›

theorem execWrite_next {n : Nat} (h : execWrite n s = .next t) : s.ic < 100 ∧ CycleCase s (.write n) t := by
  obtain ⟨hic, h⟩ := withFetched_next h
  obtain ⟨hn, h⟩ := withWord_next h
  cases completeCycle_next h
  exact ⟨hic, .write n hn⟩

theorem execLoad_next {n : Nat} (h : execLoad n s = .next t) : s.ic < 100 ∧ CycleCase s (.load n) t := by
  obtain ⟨hic, h⟩ := withFetched_next h
  obtain ⟨hn, h⟩ := withWord_next h
  cases completeCycle_next h
  exact ⟨hic, .load n hn⟩

theorem execStore_next {n : Nat} (h : execStore n s = .next t) : s.ic < 100 ∧ CycleCase s (.store n) t := by
  obtain ⟨hic, h⟩ := withFetched_next h
  obtain ⟨hn, rfl⟩ := storeWord_next h
  exact ⟨hic, .store n hn⟩

theorem execAdd_next {n : Nat} (h : execAdd n s = .next t) : s.ic < 100 ∧ CycleCase s (.add n) t := by
  obtain ⟨hic, h⟩ := withFetched_next h
  obtain ⟨hn, h⟩ := withWord_next h
  obtain ⟨hr, rfl⟩ | ⟨hr, rfl⟩ := writeChecked_next h
  · exact ⟨hic, .add n hn hr⟩
  · exact ⟨hic, .addFaults n hn hr⟩

theorem execSubtract_next {n : Nat} (h : execSubtract n s = .next t) :
    s.ic < 100 ∧ CycleCase s (.subtract n) t := by
  obtain ⟨hic, h⟩ := withFetched_next h
  obtain ⟨hn, h⟩ := withWord_next h
  obtain ⟨hr, rfl⟩ | ⟨hr, rfl⟩ := writeChecked_next h
  · exact ⟨hic, .subtract n hn hr⟩
  · exact ⟨hic, .subtractFaults n hn hr⟩

theorem execMultiply_next {n : Nat} (h : execMultiply n s = .next t) :
    s.ic < 100 ∧ CycleCase s (.multiply n) t := by
  obtain ⟨hic, h⟩ := withFetched_next h
  obtain ⟨hn, h⟩ := withWord_next h
  obtain ⟨hr, rfl⟩ | ⟨hr, rfl⟩ := writeChecked_next h
  · exact ⟨hic, .multiply n hn hr⟩
  · exact ⟨hic, .multiplyFaults n hn hr⟩

theorem execDivide_next {n : Nat} (h : execDivide n s = .next t) : s.ic < 100 ∧ CycleCase s (.divide n) t := by
  obtain ⟨hic, h⟩ := withFetched_next h
  obtain ⟨hn, h⟩ := withWord_next h
  obtain ⟨hd, rfl⟩ | ⟨hd, rfl⟩ := writeQuotient_next h
  · exact ⟨hic, .divide n hn hd⟩
  · exact ⟨hic, .divideFaults n hn hd⟩

theorem execBranch_next {k : Nat} (h : execBranch k s = .next t) : s.ic < 100 ∧ CycleCase s (.branch k) t := by
  obtain ⟨hic, h⟩ := withFetched_next h
  obtain ⟨hk, ⟨-, rfl⟩ | ⟨hf, -⟩⟩ := branchIf_next h
  · exact ⟨hic, .branch k hk⟩
  · cases hf

theorem execBranchneg_next {k : Nat} (h : execBranchneg k s = .next t) :
    s.ic < 100 ∧ CycleCase s (.branchneg k) t := by
  obtain ⟨hic, h⟩ := withFetched_next h
  obtain ⟨hk, ⟨hc, rfl⟩ | ⟨hc, rfl⟩⟩ := branchIf_next h
  · exact ⟨hic, .branchnegTaken k hk (of_decide_eq_true hc)⟩
  · exact ⟨hic, .branchnegNot k hk (Int.not_lt.1 (of_decide_eq_false hc))⟩

theorem execBranchzero_next {k : Nat} (h : execBranchzero k s = .next t) :
    s.ic < 100 ∧ CycleCase s (.branchzero k) t := by
  obtain ⟨hic, h⟩ := withFetched_next h
  obtain ⟨hk, ⟨hc, rfl⟩ | ⟨hc, rfl⟩⟩ := branchIf_next h
  · exact ⟨hic, .branchzeroTaken k hk (of_decide_eq_true hc)⟩
  · exact ⟨hic, .branchzeroNot k hk (of_decide_eq_false hc)⟩

theorem execHalt_next {n : Nat} (h : execHalt n s = .next t) : s.ic < 100 ∧ CycleCase s (.halt n) t := by
  obtain ⟨hic, h⟩ := withFetched_next h
  refine ⟨hic, ?_⟩
  cases hm : s.cycleMode <;> simp only [State.fetched_cycleMode, hm] at h
  · cases completeCycle_next h
    exact .haltLegacy n hm
  · cases h
    exact .haltCorrected n hm

theorem execNop_next {opc opd : Int} (h : execNop opc opd s = .next t) :
    s.ic < 100 ∧ CycleCase s (.nop opc opd) t := by
  obtain ⟨hic, h⟩ := withFetched_next h
  cases completeCycle_next h
  exact ⟨hic, .nop opc opd⟩

/-- Everything a cycle can do when it answers a next state. -/
theorem exec_next : ∀ {i : Instr}, exec i s = .next t → s.ic < 100 ∧ CycleCase s i t
  | .read _, h => execRead_next h
  | .write _, h => execWrite_next h
  | .load _, h => execLoad_next h
  | .store _, h => execStore_next h
  | .add _, h => execAdd_next h
  | .subtract _, h => execSubtract_next h
  | .divide _, h => execDivide_next h
  | .multiply _, h => execMultiply_next h
  | .branch _, h => execBranch_next h
  | .branchneg _, h => execBranchneg_next h
  | .branchzero _, h => execBranchzero_next h
  | .halt _, h => execHalt_next h
  | .nop _ _, h => execNop_next h

end Sys2Proof.Machine
end

