-- ==== Sys2Proof/Laws/PerInstr.lean ====
section
/-! SUPPORT. For every instruction: its Word is a Word, and its two decimal fields are its opcode and its operand
(30_encoding.md R70, R82). -/

namespace Sys2Proof.Laws.EncodedFields

/-- The Word of a well-formed instruction is in range and splits into the instruction's own fields. -/
def Statement (i : Instr) : Prop :=
  i.wellFormed = true →
    inRange (encode i) ∧ tdiv (encode i) 100 = i.opcode ∧ tmod (encode i) 100 = i.operand

/-- The same for every recognised instruction: opcode `c`, operand `n`. -/
theorem of_recognised {c : Int} {n : Nat} (hc : 10 ≤ c ∧ c ≤ 43) (hn : operandOk n = true) :
    inRange (c * 100 + n) ∧ tdiv (c * 100 + n) 100 = c ∧ tmod (c * 100 + n) 100 = n := by
  have hn' : n < 100 := operandOk_iff.1 hn
  exact ⟨inRange_iff.2 (by omega), fields_of_compose (by omega) (by omega)⟩

theorem read (n : Nat) : Statement (.read n) := of_recognised (c := 10) (by decide)
theorem write (n : Nat) : Statement (.write n) := of_recognised (c := 11) (by decide)
theorem load (n : Nat) : Statement (.load n) := of_recognised (c := 20) (by decide)
theorem store (n : Nat) : Statement (.store n) := of_recognised (c := 21) (by decide)
theorem add (n : Nat) : Statement (.add n) := of_recognised (c := 30) (by decide)
theorem subtract (n : Nat) : Statement (.subtract n) := of_recognised (c := 31) (by decide)
theorem divide (n : Nat) : Statement (.divide n) := of_recognised (c := 32) (by decide)
theorem multiply (n : Nat) : Statement (.multiply n) := of_recognised (c := 33) (by decide)
theorem branch (k : Nat) : Statement (.branch k) := of_recognised (c := 40) (by decide)
theorem branchneg (k : Nat) : Statement (.branchneg k) := of_recognised (c := 41) (by decide)
theorem branchzero (k : Nat) : Statement (.branchzero k) := of_recognised (c := 42) (by decide)
theorem halt (n : Nat) : Statement (.halt n) := of_recognised (c := 43) (by decide)

theorem nop (opc opd : Int) : Statement (.nop opc opd) := by
  intro h
  obtain ⟨hc, hd, hs, -⟩ := nopFieldsOk_iff.1 h
  refine ⟨?_, fields_of_compose hd hs⟩
  simp only [encode, Instr.opcode, Instr.operand, inRange_iff]
  omega

end Sys2Proof.Laws.EncodedFields
end

