-- ==== Sys2Proof/Tests/Slice0.lean ====
section
/-! SUPPORT. The model's own tests. Expected values are the spec's: the vectors of 95_test_vectors.md (named V.., L..)
and the decode table of 30_encoding.md R72. The witnesses show states that meet each statement's hypotheses. -/

namespace Sys2Proof.Tests

open Sys2Proof.Machine

/-! ### Helpers -/

/-- The next state of an answer, if it is one. -/
def nextOf : Result → Option State
  | .next t => some t
  | .fault _ => none
  | .refused _ => none

/-- A running machine. -/
def running (ic : Nat) (acc : Int) (mem : Memory) (input : List Int) : State :=
  { State.reset with status := .running, ic := ic, acc := acc, mem := mem, input := input }

/-- The same in corrected mode. -/
def corrected (s : State) : State := { s with cycleMode := .corrected }

/-- Accumulator, counter and status after one step. -/
def after (s : State) : Option (Int × Nat × Status) := (nextOf (step s)).map fun t => (t.acc, t.ic, t.status)

/-! ### WellFormed: an ill-formed term for each check -/

theorem test_wf_operand : (Instr.load 99).wellFormed = true ∧ (Instr.load 100).wellFormed = false := by decide
theorem test_wf_every_operand_checked :
    [Instr.read 100, .write 100, .load 100, .store 100, .add 100, .subtract 100, .divide 100, .multiply 100,
      .branch 100, .branchneg 100, .branchzero 100, .halt 100].all (fun i => !i.wellFormed) = true := by decide
theorem test_wf_nop_opcode_range : (Instr.nop 100 0).wellFormed = false := by decide
theorem test_wf_nop_operand_range : (Instr.nop 0 (-100)).wellFormed = false := by decide
theorem test_wf_nop_opposite_signs : (Instr.nop (-1) 1).wellFormed = false := by decide
theorem test_wf_nop_recognised : (Instr.nop 43 0).wellFormed = false := by decide

/-! ### Decoding: each constructor from a Word written out from its encoding (opcode digits, operand digits) -/

theorem test_decode_read : decode 1007 = .ok (.read 7) := by rfl
theorem test_decode_write : decode 1109 = .ok (.write 9) := by rfl
theorem test_decode_load : decode 2007 = .ok (.load 7) := by rfl
theorem test_decode_store : decode 2109 = .ok (.store 9) := by rfl
theorem test_decode_add : decode 3008 = .ok (.add 8) := by rfl
theorem test_decode_subtract : decode 3111 = .ok (.subtract 11) := by rfl
theorem test_decode_divide : decode 3299 = .ok (.divide 99) := by rfl
theorem test_decode_multiply : decode 3300 = .ok (.multiply 0) := by rfl
theorem test_decode_branch : decode 4042 = .ok (.branch 42) := by rfl
theorem test_decode_branchneg : decode 4105 = .ok (.branchneg 5) := by rfl
theorem test_decode_branchzero : decode 4206 = .ok (.branchzero 6) := by rfl
theorem test_decode_halt : decode 4377 = .ok (.halt 77) := by rfl
theorem test_decode_nop : decode (-1050) = .ok (.nop (-10) (-50)) := by rfl
theorem test_decode_sentinel_rejected : decode (-99999) = .error (.notAWord (-99999)) := by rfl
theorem test_decode_table_word : decodeTableWord 16 3008 = some (.add 8) ∧ decodeTableWord 16 10000 = none := by decide

/-! ### One step of each instruction -/

theorem test_read_V21 : (nextOf (step (running 3 (-4) [(3, 1099)] [9999]))).map
    (fun t => (t.mem.read 99, t.input, t.ic, t.status)) = some (9999, [], 4, .running) := by decide
theorem test_read_V27 : (nextOf (step (running 0 7 [(0, 1050), (50, 77)] [-99999, 1]))).map
    (fun t => (t.mem.read 50, t.input, t.ic, t.status)) = some (77, [1], 0, .faulted .readRange) := by decide
theorem test_write_V33 : (nextOf (step (running 0 0 [(0, 1100)] []))).map
    (fun t => (t.out, t.ic)) = some ([1100], 1) := by decide
theorem test_load_V41 : after (running 2 1234 [(2, 2007), (7, -9999)] []) = some (-9999, 3, .running) := by decide
theorem test_store_V47 : (nextOf (step (running 4 0 [(4, 2104)] []))).map
    (fun t => (t.mem, t.ir, t.ic)) = some ([], 2104, 5) := by decide
theorem test_add_V51 : after (running 3 5000 [(3, 3008), (8, 4999)] []) = some (9999, 4, .running) := by decide
theorem test_add_V59 :
    after (running 99 9999 [(98, 1), (99, 3098)] []) = some (9999, 99, .faulted .accRange) := by decide
theorem test_subtract_V60 : after (running 3 3 [(3, 3111), (11, 5)] []) = some (-2, 4, .running) := by decide
theorem test_subtract_V63 :
    after (running 3 (-9999) [(3, 3111), (11, 1)] []) = some (-9999, 3, .faulted .accRange) := by decide
theorem test_multiply_V79 : after (running 3 (-99) [(3, 3311), (11, 101)] []) = some (-9999, 4, .running) := by decide
theorem test_multiply_V78 :
    after (running 3 9999 [(3, 3311), (11, 9999)] []) = some (9999, 3, .faulted .accRange) := by decide
theorem test_divide_V81 : after (running 3 (-7) [(3, 3211), (11, 2)] []) = some (-3, 4, .running) := by decide
theorem test_divide_V8D : after (running 3 0 [(3, 3211)] []) = some (0, 3, .faulted .divZero) := by decide
theorem test_branch_V91s : after (running 5 2 [(5, 4099), (99, 1101)] []) = some (2, 100, .stopped) := by decide
theorem test_branch_V91c :
    after (corrected (running 5 2 [(5, 4099), (99, 1101)] [])) = some (2, 99, .running) := by decide
theorem test_branchneg_V95s : after (running 3 (-3) [(3, 4105)] []) = some (-3, 6, .running) := by decide
theorem test_branchneg_V98 : after (running 3 0 [(3, 4105)] []) = some (0, 4, .running) := by decide
theorem test_branchzero_V97c : after (corrected (running 1 0 [(1, 4206)] [])) = some (0, 6, .running) := by decide
theorem test_branchzero_V9B : after (running 1 (-1) [(1, 4206)] []) = some (-1, 2, .running) := by decide
theorem test_halt_V9Es : (nextOf (step (running 6 (-5) [(6, 4377)] []))).map
    (fun t => (t.diag, t.ic, t.status)) =
    some ([⟨-5, 6, 4377, 43, 77, [(6, 4377)]⟩], 7, .running) := by decide
theorem test_halt_V9Fc : after (corrected (running 99 8 [(99, 4300)] [])) = some (8, 99, .stopped) := by decide
theorem test_nop_VA1 :
    after (running 99 (-77) [(50, 9), (99, -1050)] [4]) = some (-77, 100, .stopped) := by decide
theorem test_nop_VA8 : after (running 0 (-77) [(0, 4400), (50, 9)] [4]) = some (-77, 1, .running) := by decide

/-- V28: a READ with nothing to take changes nothing. -/
theorem test_read_waits_V28 : nextOf (step (running 0 7 [(0, 1050)] [])) = some (running 0 7 [(0, 1050)] []) := by decide

/-- R40: a run that has ended stays as it is. -/
theorem test_stopped_stays : nextOf (step { State.reset with status := .stopped }) =
    some { State.reset with status := .stopped } := by decide

/-! ### The host's side -/

/-- L1, first item: 1007 is stored at address 0. -/
theorem test_loader_stores : (nextOf (step (supplyInput [1007, -99999] State.reset))).map
    (fun t => (t.mem, t.loadAddr, t.input, t.status)) = some ([(0, 1007)], 1, [-99999], .idle) := by decide
/-- L2: the sentinel first leaves all of memory 0 and starts the run. -/
theorem test_loader_sentinel : (nextOf (step (supplyInput [-99999, 0] State.reset))).map
    (fun t => (t.mem, t.input, t.status)) = some ([], [0], .running) := by decide
/-- L3: 10000 is rejected at address 0, which is asked again. -/
theorem test_loader_rejects : (nextOf (step (supplyInput [10000, 1007] State.reset))).map
    (fun t => (t.mem, t.loadAddr, t.input)) = some ([], 0, [1007]) := by decide
/-- R211: with 100 addresses filled, loading is complete and nothing is consumed. -/
theorem test_loader_full : (nextOf (step { State.reset with loadAddr := 100, input := [7] })).map
    (fun t => (t.input, t.status)) = some ([7], .running) := by decide
/-- R34: the load port is closed while RUNNING, and takes Words only. -/
theorem test_load_port : (loadPort 99 9999 State.reset).isSome = true ∧
    loadPort 0 1 (running 0 0 [] []) = none ∧ loadPort 0 10000 State.reset = none ∧
    loadPort 100 0 State.reset = none := by decide
/-- 95_test_vectors.md 2.9. -/
theorem test_cell_text : cellText 8 = ['+', '0', '0', '0', '8'] ∧ cellText (-42) = ['-', '0', '0', '4', '2'] ∧
    cellText (-9999) = ['-', '9', '9', '9', '9'] ∧ cellText 0 = ['+', '0', '0', '0', '0'] := by decide
/-- 95_test_vectors.md 2.9, WRITE output, and the prompt of R208. -/
theorem test_plain_decimal : plainDecimal 8 = ['8'] ∧ plainDecimal (-9999) = ['-', '9', '9', '9', '9'] ∧
    plainDecimal 0 = ['0'] ∧ loadPrompt 7 = ['0', '7', ' ', '?', ' '] := by decide

/-- R208, L1: the Loader prompts before any item is there, and again for the next address. -/
theorem test_console_prompts : State.reset.console = [.prompt ['0', '0', ' ', '?', ' ']] ∧
    (nextOf (step (supplyInput [1007] State.reset))).map State.console =
      some [.prompt ['0', '0', ' ', '?', ' '], .prompt ['0', '1', ' ', '?', ' ']] := by decide
/-- R210, L3: the rejection and the retry prompt, with no more input. -/
theorem test_console_rejection : (nextOf (step (supplyInput [10000] State.reset))).map State.console =
    some [.prompt ['0', '0', ' ', '?', ' '], .line "*** Unknown instruction ***".toList, .retryPrompt] := by decide
/-- R104: a READ that waits has shown its prompt. R103: WRITE's numeral stands on a line of its own. -/
theorem test_console_run : (running 0 7 [(0, 1050)] []).console = [.prompt ['?', ' ']] ∧
    (nextOf (step (running 0 0 [(0, 1109), (9, -5)] []))).map State.console = some [.line ['-', '5']] := by decide

/-- After reset the next step runs the Word that `withFetchWord` places. -/
theorem test_with_fetch_word : (nextOf (step (State.reset.withFetchWord 16 1100))).map (fun t => (t.out, t.ic)) =
    some ([1100], 1) := by decide

/-! ### Witnesses: concrete states and operands that meet the hypotheses of each statement -/

/-- LOAD 07 at 2 (V40). -/
def sLoad : State := running 2 1234 [(2, 2007), (7, 5)] []
/-- READ 50 at 0, with the boundary 9999 as input. -/
def sRead : State := running 0 7 [(0, 1050), (50, 77)] [9999]
/-- A running HALT at 6. -/
def sHalt : State := running 6 8 [(6, 4300), (7, 1109)] []

theorem witness_DecodeOfEncode : (Instr.read 99).wellFormed = true ∧ (Instr.halt 0).wellFormed = true ∧
    (Instr.nop (-99) (-99)).wellFormed = true ∧ (Instr.nop 9 99).wellFormed = true := by decide
theorem witness_word_bounds : ((-9999 : Int) ≤ -9999 ∧ (-9999 : Int) ≤ 9999) ∧ ((-9999 : Int) ≤ 9999 ∧ (9999 : Int) ≤ 9999) := by
  decide
theorem witness_FieldsOfEveryWord : ∃ t, exec (.load 7) sLoad = .next t ∧ ¬ Claims.waiting (.load 7) sLoad :=
  ⟨_, rfl, fun h => by obtain ⟨⟨n, hn⟩, -⟩ := h; cases hn⟩
theorem witness_OpcodeMap : tdiv 1000 100 = 10 ∧ tdiv 1199 100 = 11 ∧ tdiv 2000 100 = 20 ∧ tdiv 2199 100 = 21 ∧
    tdiv 3099 100 = 30 ∧ tdiv 3100 100 = 31 ∧ tdiv 3299 100 = 32 ∧ tdiv 3300 100 = 33 ∧ tdiv 4099 100 = 40 ∧
    tdiv 4100 100 = 41 ∧ tdiv 4299 100 = 42 ∧ tdiv 4399 100 = 43 ∧ tdiv 999 100 = 9 := by decide
theorem witness_NonWords : (-10000 : Int) < -9999 ∧ (9999 : Int) < 10000 := by decide
theorem witness_TruncatingDivision : (-7 : Int) ≠ 0 := by decide
theorem witness_StepRuns : sLoad.status = .running ∧ sLoad.ic ≤ 99 ∧ decode (sLoad.mem.read sLoad.ic) = .ok (.load 7) :=
  ⟨rfl, by decide, rfl⟩
theorem witness_CounterAfter_completes : ∃ t, exec (.load 7) sLoad = .next t ∧ sLoad.status = .running ∧
    ¬ Claims.waiting (.load 7) sLoad ∧ ∀ k, t.status ≠ .faulted k := by
  refine ⟨_, rfl, rfl, fun h => ?_, fun k h => ?_⟩
  · obtain ⟨⟨n, hn⟩, -⟩ := h; cases hn
  · cases k <;> exact absurd h (by decide)
theorem witness_CounterAfter_faults : ∃ t, exec (.divide 11) (running 3 0 [(3, 3211)] []) = .next t ∧
    t.status = .faulted .divZero := ⟨_, rfl, rfl⟩
theorem witness_StatusTransitions_idle : ∃ t, step State.reset = .next t ∧ State.reset.status = .idle := ⟨_, rfl, rfl⟩
theorem witness_StatusTransitions_running : ∃ t, step sHalt = .next t ∧ sHalt.status = .running := ⟨_, rfl, rfl⟩
theorem witness_StatusTransitions_ended : ∃ s t : State, step s = .next t ∧ s.status = .stopped :=
  ⟨{ State.reset with status := .stopped }, _, rfl, rfl⟩
theorem witness_StatusTransitions_faulted : ∃ s t : State, step s = .next t ∧ s.status = .faulted .accRange :=
  ⟨{ State.reset with status := .faulted .accRange }, _, rfl, rfl⟩
theorem witness_Faults_readRange : ∃ t, exec (.read 50) { sRead with input := [-10000] } = .next t ∧
    t.status = .faulted .readRange := ⟨_, rfl, rfl⟩
theorem witness_Faults_accRange : ∃ t, exec (.add 8) (running 3 5000 [(3, 3008), (8, 5000)] []) = .next t ∧
    t.status = .faulted .accRange := ⟨_, rfl, rfl⟩

/-- A running state that meets the invariant. -/
theorem witness_Inv : Inv sLoad where
  memCanonical := by decide
  cellsAreWords a := by
    simp only [sLoad, running, Memory.read_cons, Memory.read_nil, inRange_iff]
    split <;> [omega; (split <;> omega)]
  accIsWord := by decide
  irIsWord := by decide
  fieldsOfIr := by decide
  counterBound := by decide
  runningCounter _ := by decide
  idleCounter h := by cases h
  stoppedCounter h := by cases h
  faultedCounter k h := by cases h
  loaderBound := by decide
theorem witness_EveryStepKeepsInv : ∃ t, Inv sLoad ∧ step sLoad = .next t := ⟨_, witness_Inv, rfl⟩
theorem witness_HostMoves : ∃ t, loadPort 99 (-9999) State.reset = some t := ⟨_, rfl⟩
theorem witness_InvHoldsAtReset : (-9999 : Int) ≤ -9999 ∧ (-9999 : Int) ≤ 9999 := by decide

theorem witness_Read_waits : { sRead with input := [] }.mem.wf = true ∧ { sRead with input := [] }.ic ≤ 99 ∧ 50 ≤ 99 ∧
    { sRead with input := [] }.input = [] := by decide
theorem witness_Read_stores : sRead.mem.wf = true ∧ sRead.ic ≤ 99 ∧ 99 ≤ 99 ∧ sRead.input = 9999 :: [] := by decide
theorem witness_Read_faults : { sRead with input := [10000] }.mem.wf = true ∧
    { sRead with input := [10000] }.input = 10000 :: [] ∧ (9999 : Int) < 10000 := by decide
theorem witness_register_only : sLoad.ic ≤ 99 ∧ 99 ≤ 99 ∧ (running 99 0 [] []).ic ≤ 99 := by decide
theorem witness_Store : sLoad.mem.wf = true ∧ sLoad.ic ≤ 99 ∧ 0 ≤ 99 := by decide
theorem witness_Add : (5000 : Int) + (running 3 5000 [(8, 4999)] []).mem.read 8 ≤ 9999 ∧
    9999 < (5000 : Int) + (running 3 5000 [(8, 5000)] []).mem.read 8 := by decide
theorem witness_Subtract : (0 : Int) - (running 3 0 [(11, 9999)] []).mem.read 11 ≥ -9999 ∧
    9999 < (9999 : Int) - (running 3 9999 [(11, -1)] []).mem.read 11 := by decide
theorem witness_Multiply : (99 : Int) * (running 3 99 [(11, 101)] []).mem.read 11 ≤ 9999 ∧
    (-100 : Int) * (running 3 (-100) [(11, 100)] []).mem.read 11 < -9999 := by decide
theorem witness_Multiply_words : (-9999 ≤ (running 3 (-9999) [(11, 9999)] []).acc ∧ (running 3 (-9999) [(11, 9999)] []).acc ≤ 9999) ∧
    -9999 ≤ (running 3 (-9999) [(11, 9999)] []).mem.read 11 ∧ (running 3 (-9999) [(11, 9999)] []).mem.read 11 ≤ 9999 := by decide
theorem witness_Divide : (running 3 7 [(11, -2)] []).mem.read 11 ≠ 0 ∧ (running 3 7 [] []).mem.read 11 = 0 := by decide
theorem witness_Branchneg : (running 3 (-1) [] []).acc < 0 ∧ 0 ≤ (running 3 0 [] []).acc := by decide
theorem witness_Branchzero : (running 3 0 [] []).acc = 0 ∧ (running 3 1 [] []).acc ≠ 0 := by decide
theorem witness_Halt : sHalt.ic ≤ 99 ∧ sHalt.cycleMode = .strictLegacy ∧ (corrected sHalt).cycleMode = .corrected := by
  decide
theorem witness_HaltStep : sHalt.status = .running ∧ sHalt.ic ≤ 99 ∧ 0 ≤ 99 ∧ sHalt.mem.read sHalt.ic = 4300 + 0 := by
  decide
theorem witness_ArithmeticRangeFault : (running 3 5000 [(8, 5000)] []).acc + (running 3 5000 [(8, 5000)] []).mem.read 8 = 10000 ∧
    (running 3 100 [(8, 9899)] []).acc + (running 3 100 [(8, 9899)] []).mem.read 8 = 9999 := by decide
theorem witness_DivisionSignTable : (-9999, 100, -99) ∈ Claims.divisionTable ∧ (running 3 (-9999) [(11, 100)] []).acc = -9999 ∧
    (running 3 (-9999) [(11, 100)] []).mem.read 11 = 100 := by decide
theorem witness_AccWritten : ∃ t, exec (.store 9) sLoad = .next t ∧
    ∀ n, Instr.store 9 ≠ .load n ∧ Instr.store 9 ≠ .add n ∧ Instr.store 9 ≠ .subtract n ∧
      Instr.store 9 ≠ .divide n ∧ Instr.store 9 ≠ .multiply n := ⟨_, rfl, by simp⟩
theorem witness_FourInstructions : (∃ t, exec (.read 50) sRead = .next t) ∧ (∃ t, exec (.branch 99) sRead = .next t) :=
  ⟨⟨_, rfl⟩, ⟨_, rfl⟩⟩
theorem witness_MemoryWritten : ∃ t, exec (.store 9) sLoad = .next t ∧ sLoad.mem.wf = true ∧
    (∀ n, Instr.store 9 = .read n ∨ Instr.store 9 = .store n → 8 ≠ n) ∧
    ∀ n, Instr.load 7 ≠ .read n ∧ Instr.load 7 ≠ .store n :=
  ⟨_, rfl, by decide, by simp, by simp⟩
theorem witness_Channels : (∃ t, exec (.halt 0) sHalt = .next t) ∧ (∃ t, exec (.read 50) sRead = .next t) ∧
    (∃ t, exec (.write 99) sHalt = .next t) ∧ ∃ t, exec (.load 7) sLoad = .next t :=
  ⟨⟨_, rfl⟩, ⟨_, rfl⟩, ⟨_, rfl⟩, ⟨_, rfl⟩⟩
theorem witness_CycleMode : ∃ t, step (corrected sHalt) = .next t ∧ (corrected sHalt).status = .running := ⟨_, rfl, rfl⟩
theorem witness_StoredWord : (running 98 4300 [(98, 2199)] []).mem.wf = true ∧
    (running 98 4300 [(98, 2199)] []).status = .running ∧ (running 98 4300 [(98, 2199)] []).ic ≤ 98 ∧
    decode (running 98 4300 [(98, 2199)] []).acc = .ok (.halt 0) := ⟨by decide, rfl, by decide, rfl⟩
theorem witness_HaltIsFollowed : sHalt.status = .running ∧ sHalt.cycleMode = .strictLegacy ∧ sHalt.ic ≤ 98 ∧
    decode (sHalt.mem.read sHalt.ic) = .ok (.halt 0) ∧ decode (sHalt.mem.read (sHalt.ic + 1)) = .ok (.write 9) :=
  ⟨rfl, rfl, by decide, rfl, rfl⟩
theorem witness_AddressZero : ∃ t, exec (.divide 11) (running 0 1 [(0, 3211)] []) = .next t ∧
    (running 0 1 [(0, 3211)] []).cycleMode = .strictLegacy ∧ t.ic = 0 := ⟨_, rfl, rfl, rfl⟩
theorem witness_ReadWaits : { sRead with input := [] }.status = .running ∧
    fetch { sRead with input := [] } = .ok (.read 50) ∧ { sRead with input := [] }.input = [] := ⟨rfl, rfl, rfl⟩
theorem witness_OldInstructionRegister : sLoad.status = .running ∧
    ∀ i, fetch sLoad = .ok i → ¬ Claims.waiting i sLoad := by
  refine ⟨rfl, fun i h hw => ?_⟩
  obtain ⟨⟨n, rfl⟩, -⟩ := hw
  exact absurd (show fetch sLoad = .ok (.load 7) from rfl) (by rw [h]; simp)
theorem witness_NopsCarry : (running 98 0 [(98, 100)] []).status = .running ∧ (running 98 0 [(98, 100)] []).ic ≤ 99 ∧
    decode ((running 98 0 [(98, 100)] []).mem.read 98) = .ok (.nop 1 0) ∧
    decode ((running 98 0 [(98, 100)] []).mem.read 99) = .ok (.nop 0 0) := ⟨rfl, by decide, rfl, rfl⟩
theorem witness_OutsideMemory : 100 ≤ (running 100 0 [] []).ic ∧ (running 99 0 [] []).ic ≤ 99 ∧ 100 ≤ 100 := by decide
theorem witness_Canonical : Memory.wf [(0, 1), (99, -1)] = true ∧ Memory.wf [(1, 0)] = false ∧
    Memory.wf [(5, 1), (3, 1)] = false ∧ Memory.wf [(100, 1)] = false := by decide
theorem witness_Loader_sentinel : (∀ x ∈ ([10000, 1007] : List Int), x ≠ -99999) ∧
    (Claims.accepted [10000, 1007]).length ≤ 99 := by decide
theorem witness_Loader_full : (∀ x ∈ List.replicate 99 (1 : Int), x ≠ -99999) ∧
    (Claims.accepted (List.replicate 99 1)).length = 99 := by
  refine ⟨fun x hx => ?_, by decide⟩
  rw [List.eq_of_mem_replicate hx]; decide
theorem witness_Rejection : (supplyInput [10000] State.reset).status = .idle ∧ (supplyInput [10000] State.reset).loadAddr ≤ 99 ∧
    (supplyInput [10000] State.reset).input = 10000 :: [] ∧ (10000 : Int) ≠ -99999 ∧ (9999 : Int) < 10000 := by decide
theorem witness_WriteIsShown : (running 5 0 [(5, 1199)] []).status = .running ∧
    fetch (running 5 0 [(5, 1199)] []) = .ok (.write 99) ∧ 99 ≤ 99 := ⟨rfl, rfl, by decide⟩
theorem witness_Prompts_loader : State.reset.status = .idle ∧ { State.reset with loadAddr := 99 }.loadAddr ≤ 99 ∧
    State.reset.trace.getLast? ≠ some .rejected := by decide
theorem witness_Prompts_read : sRead.status = .running ∧ fetch sRead = .ok (.read 50) := ⟨rfl, rfl⟩
theorem witness_RejectionIsShown_again :
    ({ State.reset with trace := [.asked 0, .rejected], input := [-10000] } : State).input = [-10000] ∧
    ({ State.reset with trace := [.asked 0, .rejected], input := [-10000] } : State).status = .idle ∧
    ({ State.reset with trace := [.asked 0, .rejected], input := [-10000] } : State).loadAddr ≤ 99 := by decide
theorem witness_ConsoleOnlyGrows : (∃ t, step State.reset = .next t) ∧ ∃ t, step sRead = .next t := ⟨⟨_, rfl⟩, ⟨_, rfl⟩⟩
theorem witness_LoadPort : State.reset.status = .idle ∧ sLoad.status ≠ .idle := by decide

end Sys2Proof.Tests
end

section
/-! PROOFS. Truncating division and remainder (00_scope.md R13): the size of the quotient, the sign and the size of
the remainder. -/

namespace Sys2Proof

@[simp] theorem abs_signOf (x : Int) : |signOf x| = 1 := by
  unfold signOf
  split <;> rfl

/-- The formula of `tdiv` with the magnitudes as integers. -/
theorem tdiv_eq_signOf_mul_ediv_abs (a b : Int) : tdiv a b = signOf a * signOf b * (|a| / |b|) := by
  rw [tdiv, Int.natCast_ediv, Int.natCast_natAbs, Int.natCast_natAbs]

/-- The magnitude of the quotient is the quotient of the magnitudes. -/
theorem abs_tdiv (a b : Int) : |tdiv a b| = |a| / |b| := by
  have hq : 0 ≤ |a| / |b| := Int.ediv_nonneg (abs_nonneg a) (abs_nonneg b)
  rw [tdiv_eq_signOf_mul_ediv_abs, abs_mul, abs_mul, abs_signOf, abs_signOf, abs_of_nonneg hq, one_mul, one_mul]

theorem abs_mul_tdiv_le {a b : Int} (hb : b ≠ 0) : |b * tdiv a b| ≤ |a| := by
  rw [abs_mul, abs_tdiv]
  exact Int.mul_ediv_self_le (abs_ne_zero.mpr hb)

/-- The remainder of a non-negative dividend is non-negative and smaller than the divisor's magnitude. -/
theorem tmod_bounds_of_nonneg {a b : Int} (ha : 0 ≤ a) (hb : b ≠ 0) : 0 ≤ tmod a b ∧ tmod a b < |b| := by
  rw [tmod_eq, Int.abs_eq_natAbs]
  exact ((Int.tdiv_tmod_unique ha hb).mp ⟨rfl, rfl⟩).2

/-- The remainder of a non-positive dividend is non-positive and larger than the divisor's negated magnitude. -/
theorem tmod_bounds_of_nonpos {a b : Int} (ha : a ≤ 0) (hb : b ≠ 0) : -|b| < tmod a b ∧ tmod a b ≤ 0 := by
  rw [tmod_eq, Int.abs_eq_natAbs]
  exact ((Int.tdiv_tmod_unique' ha hb).mp ⟨rfl, rfl⟩).2

theorem abs_tmod_lt {a b : Int} (hb : b ≠ 0) : |tmod a b| < |b| := by
  rcases le_total 0 a with ha | ha
  · obtain ⟨hnonneg, hlt⟩ := tmod_bounds_of_nonneg ha hb
    rwa [abs_of_nonneg hnonneg]
  · obtain ⟨hgt, hnonpos⟩ := tmod_bounds_of_nonpos ha hb
    rw [abs_of_nonpos hnonpos]
    exact neg_lt.mp hgt

/-- Settles O7: the quotient is the signs times the quotient of the magnitudes, and the remainder's bounds
follow from the sign of the dividend. -/
theorem truncatingDivisionRoundsTowardZero : Obligations.TruncatingDivisionRoundsTowardZero := by
  refine ⟨fun a b hb => ⟨tdiv_eq_signOf_mul_ediv_abs a b, rfl, abs_mul_tdiv_le hb, abs_tmod_lt hb, ?_, ?_⟩, by decide⟩
  · exact fun ha => (tmod_bounds_of_nonneg ha hb).1
  · exact fun ha => (tmod_bounds_of_nonpos ha hb).2

end Sys2Proof
end

section
/-! PROOFS. The two decimal fields of a Word and the opcode map (30_encoding.md R71, R74), and the fields of the
fetched Word in the registers after a cycle (10_state.md R39). -/

namespace Sys2Proof

/-! ### The fields of a Word -/

/-- The opcode field of a Word has at most two digits. -/
theorem opc_bounds {w : Int} (hw : inRange w) : -99 ≤ tdiv w 100 ∧ tdiv w 100 ≤ 99 := by
  obtain ⟨hlo, hhi⟩ := inRange_iff.1 hw
  rcases le_total 0 w with h | h
  · rw [(fields_of_nonneg h).1]; omega
  · rw [(fields_of_nonpos h).1]; omega

/-- The operand field of any integer has at most two digits. -/
theorem opd_bounds (w : Int) : -99 ≤ tmod w 100 ∧ tmod w 100 ≤ 99 := by
  rcases le_total 0 w with h | h
  · rw [(fields_of_nonneg h).2]; omega
  · rw [(fields_of_nonpos h).2]; omega

theorem fields_nonneg {w : Int} (h : 0 ≤ w) : 0 ≤ tdiv w 100 ∧ 0 ≤ tmod w 100 := by
  obtain ⟨hopc, hopd⟩ := fields_of_nonneg h
  omega

theorem fields_nonpos {w : Int} (h : w ≤ 0) : tdiv w 100 ≤ 0 ∧ tmod w 100 ≤ 0 := by
  obtain ⟨hopc, hopd⟩ := fields_of_nonpos h
  omega

/-! ### The rows of the opcode map -/

/-- The integers of a positive opcode `c` are the hundred from `c * 100` on. -/
theorem opc_eq_iff {c w : Int} (hc : 0 < c) : c * 100 ≤ w ∧ w ≤ c * 100 + 99 ↔ tdiv w 100 = c := by
  rcases le_total 0 w with h | h
  · rw [(fields_of_nonneg h).1]; omega
  · rw [(fields_of_nonpos h).1]; omega

/-- One row of the opcode map: the range of Words of the opcode `c`, and the arm it selects. -/
theorem opcode_row {w : Int} (hw : inRange w) (c : Int) (hc : 0 < c) :
    (c * 100 ≤ w ∧ w ≤ c * 100 + 99 ↔ tdiv w 100 = c) ∧
      (tdiv w 100 = c → decode w = .ok (dispatch c (tmod w 100))) :=
  ⟨opc_eq_iff hc, fun hopc => hopc ▸ decode_word hw⟩

/-- Settles O4: each row is `opcode_row` at its opcode, where `dispatch` evaluates to the row's instruction. -/
theorem opcodeMapByWordRange : Obligations.OpcodeMapByWordRange := by
  intro w hlo hhi
  have row := opcode_row (inRange_iff.2 ⟨hlo, hhi⟩)
  refine ⟨row 10 (by decide), row 11 (by decide), row 20 (by decide), row 21 (by decide), row 30 (by decide),
    row 31 (by decide), row 32 (by decide), row 33 (by decide), row 40 (by decide), row 41 (by decide),
    row 42 (by decide), row 43 (by decide), fun hopc => ?_⟩
  rw [decode_word (inRange_iff.2 ⟨hlo, hhi⟩), dispatch_nop _ hopc]

end Sys2Proof

namespace Sys2Proof.Machine

variable {s t : State}

/-! ### The instruction register and its fields after a cycle -/

@[simp] theorem State.branched_ir (k : Nat) : (s.branched k).ir = s.ir := by
  unfold State.branched
  cases s.cycleMode <;> simp

@[simp] theorem State.branched_opc (k : Nat) : (s.branched k).opc = s.opc := by
  unfold State.branched
  cases s.cycleMode <;> simp

@[simp] theorem State.branched_opd (k : Nat) : (s.branched k).opd = s.opd := by
  unfold State.branched
  cases s.cycleMode <;> simp

/-- No arm writes the registers that the fetch of its cycle wrote; only a waiting READ answers without the fetch. -/
theorem CycleCase.keeps_fetched_fields {i : Instr} (h : CycleCase s i t) (hw : ¬ Claims.waiting i s) :
    t.ir = s.fetched.ir ∧ t.opc = s.fetched.opc ∧ t.opd = s.fetched.opd := by
  cases h with
  | readWaits n empty => exact absurd ⟨⟨n, rfl⟩, empty⟩ hw
  | _ => simp

/-- Settles O3: the two fields' rules, and `CycleCase.keeps_fetched_fields` for the registers. -/
theorem fieldsOfEveryWord : Obligations.FieldsOfEveryWord := by
  refine ⟨fun w hlo hhi => ?_, fun i s t hnext hrun => ?_⟩
  · have hw : inRange w := inRange_iff.2 ⟨hlo, hhi⟩
    exact ⟨⟨_, decode_word hw⟩, fields_compose w, opc_bounds hw, opd_bounds w, fields_nonneg, fields_nonpos⟩
  · obtain ⟨hir, hopc, hopd⟩ := (exec_next hnext).2.keeps_fetched_fields hrun
    rw [hir]
    exact ⟨rfl, hopc, hopd⟩

end Sys2Proof.Machine
end

section
/-! PROOFS. The Word made of an opcode and an operand (30_encoding.md R74, R82), the obligations' parts of a cycle as
the model's own operations (10_state.md R25, R26, R39), and WRITE (40_io.md R102). -/

namespace Sys2Proof

/-- A Word made of an opcode between the recognised ones and an operand 0..99 decodes to the arm of these two fields. -/
theorem decode_compose {c : Int} {n : Nat} (hc : 10 ≤ c ∧ c ≤ 43) (hn : n < 100) :
    decode (c * 100 + n) = .ok (dispatch c n) := by
  obtain ⟨hword, hopc, hopd⟩ := Laws.EncodedFields.of_recognised hc (operandOk_iff.2 hn)
  rw [decode_word hword, hopc, hopd]

end Sys2Proof

namespace Sys2Proof.Machine

variable {s : State}

/-! ### The parts of a cycle as the obligations write them -/

theorem State.fetched_eq_claims_fetched : s.fetched = Claims.fetched s := by
  unfold State.fetched State.latch
  rw [tdiv_eq, tmod_eq]
  rfl

/-- The end test writes the status alone. -/
theorem State.endTest_eq_setStatus : s.endTest = s.setStatus s.endTest.status := by
  unfold State.endTest
  split <;> rfl

theorem State.advanced_eq_claims_onward : s.advanced = Claims.onward s := by
  calc s.advanced
      = (s.setIc (s.ic + 1)).setStatus s.advanced.status := State.endTest_eq_setStatus
    _ = Claims.onward s := by rw [State.advanced_status]; rfl

/-! ### The channels over the fetch and the advance: neither part touches the trace -/

@[simp] theorem State.fetched_out : s.fetched.out = s.out := rfl
@[simp] theorem State.fetched_diag : s.fetched.diag = s.diag := rfl
@[simp] theorem State.advanced_out : s.advanced.out = s.out := (State.channels_congr State.advanced_trace).1
@[simp] theorem State.advanced_diag : s.advanced.diag = s.diag := (State.channels_congr State.advanced_trace).2

/-! ### WRITE -/

/-- Inside the address space a WRITE always completes. -/
theorem exec_write_of_lt {n : Nat} (hic : s.ic < 100) (hn : n < 100) :
    exec (.write n) s = .next (s.fetched.emit (.out (s.mem.read n))).advanced := by
  calc exec (.write n) s
      = withFetched s fun f => withWord n f fun v => completeCycle (f.emit (.out v)) := rfl
    _ = withWord n s.fetched fun v => completeCycle (s.fetched.emit (.out v)) := withFetched_of_lt hic
    _ = completeCycle (s.fetched.emit (.out (s.mem.read n))) := withWord_of_lt hn

/-- Settles O19: `decode_compose` at opcode 11, and `exec_write_of_lt` for the cycle, whose one event is the cell. -/
theorem writeAppendsTheCellToOut : Obligations.WriteAppendsTheCellToOut := by
  intro s n hic hn
  have hn' : n < 100 := Nat.lt_succ_of_le hn
  refine ⟨decode_compose (c := 11) (by decide) hn', _, exec_write_of_lt (Nat.lt_succ_of_le hic) hn', ?_, ?_, ?_⟩
  · rw [State.advanced_out, State.out_emit_out, State.fetched_out]
  · rw [State.advanced_diag, State.diag_emit_out, State.fetched_diag]
  · rw [State.advanced_eq_claims_onward, State.fetched_eq_claims_fetched]
    rfl

end Sys2Proof.Machine
end

section
/-! PROOFS. LOAD and STORE (41_load_store.md R110, R111): each cycle inside the address space, and its result. -/

namespace Sys2Proof.Machine

variable {s : State}

/-- Inside the address space a STORE always completes. -/
theorem exec_store_of_lt {n : Nat} (hic : s.ic < 100) (hn : n < 100) :
    exec (.store n) s = .next (s.fetched.setCell n s.acc).advanced := by
  calc exec (.store n) s
      = withFetched s fun f => storeWord n f.acc f := rfl
    _ = storeWord n s.acc s.fetched := withFetched_of_lt hic
    _ = completeCycle (s.fetched.setCell n s.acc) := storeWord_of_lt hn

/-- Settles O21: `decode_compose` at opcode 21, and `exec_store_of_lt` for the cycle, whose memory is the write of
the accumulator to the operand's cell. -/
theorem storeCopiesAccToTheCell : Obligations.StoreCopiesAccToTheCell := by
  intro s n hmem hic hn
  have hn' : n < 100 := Nat.lt_succ_of_le hn
  refine ⟨decode_compose (c := 21) (by decide) hn', s.mem.write n s.acc, Memory.wf_write s.acc hmem hn',
    Memory.read_write hmem n s.acc, ?_⟩
  rw [exec_store_of_lt (Nat.lt_succ_of_le hic) hn', State.advanced_eq_claims_onward,
    State.fetched_eq_claims_fetched]
  rfl

/-- Inside the address space a LOAD always completes. -/
theorem exec_load_of_lt {n : Nat} (hic : s.ic < 100) (hn : n < 100) :
    exec (.load n) s = .next (s.fetched.setAcc (s.mem.read n)).advanced := by
  calc exec (.load n) s
      = withFetched s fun f => withWord n f fun v => completeCycle (f.setAcc v) := rfl
    _ = withWord n s.fetched fun v => completeCycle (s.fetched.setAcc v) := withFetched_of_lt hic
    _ = completeCycle (s.fetched.setAcc (s.mem.read n)) := withWord_of_lt hn

/-- Settles O20: `decode_compose` at opcode 20, and `exec_load_of_lt` for the cycle. -/
theorem loadCopiesTheCellToAcc : Obligations.LoadCopiesTheCellToAcc := by
  intro s n hic hn
  have hn' : n < 100 := Nat.lt_succ_of_le hn
  refine ⟨decode_compose (c := 20) (by decide) hn', ?_⟩
  rw [exec_load_of_lt (Nat.lt_succ_of_le hic) hn', State.advanced_eq_claims_onward,
    State.fetched_eq_claims_fetched]
  rfl

end Sys2Proof.Machine
end

section
/-! PROOFS. ADD, SUBTRACT, MULTIPLY and DIVIDE (42_arithmetic.md R120 to R127): a cycle inside the address space ends
with the range test of the exact result, or with the quotient, on the fetched state. -/

namespace Sys2Proof.Machine

variable {s : State}

/-! ### The range test and the test of the divisor -/

theorem not_inRange_iff {r : Int} : ¬ inRange r ↔ r < -9999 ∨ 9999 < r := by
  rw [inRange_iff]
  omega

theorem writeChecked_eq_onward {r : Int} (h : inRange r) :
    writeChecked r s = .next (Claims.onward { s with acc := r }) := by
  calc writeChecked r s
      = .next (s.setAcc r).advanced := writeChecked_of_inRange h
    _ = .next (Claims.onward { s with acc := r }) := by rw [State.advanced_eq_claims_onward]; rfl

theorem writeChecked_eq_accRange {r : Int} (h : ¬ inRange r) :
    writeChecked r s = .next { s with status := .faulted .accRange } := writeChecked_of_outOfRange h

/-- The quotient is Lean's own. -/
theorem writeQuotient_eq_onward {d : Int} (h : d ≠ 0) :
    writeQuotient d s = .next (Claims.onward { s with acc := Int.tdiv s.acc d }) := by
  calc writeQuotient d s
      = .next (s.setAcc (tdiv s.acc d)).advanced := writeQuotient_of_ne h
    _ = .next (Claims.onward { s with acc := Int.tdiv s.acc d }) := by
      rw [State.advanced_eq_claims_onward, tdiv_eq]; rfl

/-- Both outcomes of a cycle that is the range test of `r` on the fetched state (R121). -/
theorem exact_or_accRange_of_writeChecked {i : Instr} {r : Int} (h : exec i s = writeChecked r s.fetched) :
    (-9999 ≤ r → r ≤ 9999 → exec i s = .next (Claims.onward { Claims.fetched s with acc := r })) ∧
    ((r < -9999 ∨ 9999 < r) → exec i s = .next { Claims.fetched s with status := .faulted .accRange }) := by
  rw [h, State.fetched_eq_claims_fetched]
  exact ⟨fun hlo hhi => writeChecked_eq_onward (inRange_iff.2 ⟨hlo, hhi⟩),
    fun hout => writeChecked_eq_accRange (not_inRange_iff.2 hout)⟩

/-! ### The four cycles -/

/-- Inside the address space a cycle that reads `M[n]` goes on with the fetched state and that Word. -/
theorem withFetched_withWord_of_lt {n : Nat} (use : State → Int → Result) (hic : s.ic < 100) (hn : n < 100) :
    (withFetched s fun f => withWord n f (use f)) = use s.fetched (s.mem.read n) := by
  rw [withFetched_of_lt hic, withWord_of_lt hn, State.fetched_mem]

theorem exec_add_of_lt {n : Nat} (hic : s.ic < 100) (hn : n < 100) :
    exec (.add n) s = writeChecked (s.acc + s.mem.read n) s.fetched :=
  withFetched_withWord_of_lt (fun f v => writeChecked (f.acc + v) f) hic hn

theorem exec_subtract_of_lt {n : Nat} (hic : s.ic < 100) (hn : n < 100) :
    exec (.subtract n) s = writeChecked (s.acc - s.mem.read n) s.fetched :=
  withFetched_withWord_of_lt (fun f v => writeChecked (f.acc - v) f) hic hn

theorem exec_multiply_of_lt {n : Nat} (hic : s.ic < 100) (hn : n < 100) :
    exec (.multiply n) s = writeChecked (s.acc * s.mem.read n) s.fetched :=
  withFetched_withWord_of_lt (fun f v => writeChecked (f.acc * v) f) hic hn

theorem exec_divide_of_lt {n : Nat} (hic : s.ic < 100) (hn : n < 100) :
    exec (.divide n) s = writeQuotient (s.mem.read n) s.fetched :=
  withFetched_withWord_of_lt (fun f d => writeQuotient d f) hic hn

/-! ### The range fault of the three checked instructions -/

/-- Completing a cycle never faults a run. -/
theorem State.advanced_status_ne_faulted (h : s.status = .running) (k : FaultKind) :
    s.advanced.status ≠ .faulted k := by
  rw [State.advanced_status, h]
  split <;> simp

/-- Settles O32: each of the three cycles is the range test of its exact result, and the boundary values are instances
of its two outcomes. -/
theorem arithmeticRangeFault : Obligations.ArithmeticRangeFault := by
  intro s n i r hic hn hi
  have hic' : s.ic < 100 := Nat.lt_succ_of_le hic
  have hn' : n < 100 := Nat.lt_succ_of_le hn
  have hexec : exec i s = writeChecked r s.fetched := by
    rcases hi with ⟨rfl, rfl⟩ | ⟨rfl, rfl⟩ | ⟨rfl, rfl⟩
    · exact exec_add_of_lt hic' hn'
    · exact exec_subtract_of_lt hic' hn'
    · exact exec_multiply_of_lt hic' hn'
  have hfaults (hr : ¬ inRange r) : exec i s = .next (s.fetched.setStatus (.faulted .accRange)) :=
    hexec.trans (writeChecked_of_outOfRange hr)
  have hwrites (hr : inRange r) : exec i s = .next (s.fetched.setAcc r).advanced :=
    hexec.trans (writeChecked_of_inRange hr)
  refine ⟨fun hout => ?_, fun hlo hhi => ?_, fun hr => ?_, fun hr hrun => ?_⟩
  · exact ⟨_, hfaults (not_inRange_iff.2 hout), rfl, rfl⟩
  · exact ⟨_, hwrites (inRange_iff.2 ⟨hlo, hhi⟩), State.advanced_acc, fun hrun =>
      State.advanced_status_ne_faulted (s := s.fetched.setAcc r) hrun .accRange⟩
  · exact ⟨_, hfaults (not_inRange_iff.2 (by omega)), rfl⟩
  · exact ⟨_, hwrites (inRange_iff.2 (by omega)), State.advanced_status_ne_faulted hrun⟩

/-! ### The result of each instruction -/

/-- Settles O22: `decode_compose` at opcode 30, and the range test of the sum. -/
theorem addIsExactOrFaults : Obligations.AddIsExactOrFaults := by
  intro s n hic hn
  have hn' : n < 100 := Nat.lt_succ_of_le hn
  exact ⟨decode_compose (c := 30) (by decide) hn',
    exact_or_accRange_of_writeChecked (exec_add_of_lt (Nat.lt_succ_of_le hic) hn')⟩

/-- Settles O23: `decode_compose` at opcode 31, and the range test of the difference. -/
theorem subtractIsExactOrFaults : Obligations.SubtractIsExactOrFaults := by
  intro s n hic hn
  have hn' : n < 100 := Nat.lt_succ_of_le hn
  exact ⟨decode_compose (c := 31) (by decide) hn',
    exact_or_accRange_of_writeChecked (exec_subtract_of_lt (Nat.lt_succ_of_le hic) hn')⟩

/-- Settles O24: `decode_compose` at opcode 32, and the test of the divisor. -/
theorem divideTruncatesOrFaults : Obligations.DivideTruncatesOrFaults := by
  intro s n hic hn
  have hn' : n < 100 := Nat.lt_succ_of_le hn
  refine ⟨decode_compose (c := 32) (by decide) hn', ?_⟩
  rw [exec_divide_of_lt (Nat.lt_succ_of_le hic) hn', State.fetched_eq_claims_fetched]
  refine ⟨fun hd => writeQuotient_eq_onward hd, fun hd => ?_⟩
  rw [hd, writeQuotient_zero]
  rfl

/-- The exact product of two Words has a magnitude of at most 9999 squared. -/
theorem abs_mul_le_of_inRange {a v : Int} (ha : inRange a) (hv : inRange v) : |a * v| ≤ 99980001 := by
  calc |a * v|
      = |a| * |v| := abs_mul a v
    _ ≤ 9999 * 9999 := mul_le_mul (abs_le.2 ha) (abs_le.2 hv) (abs_nonneg v) (by decide)

/-- Settles O25: `decode_compose` at opcode 33, the range test of the product, and the bound on the product. -/
theorem multiplyIsExactOrFaults : Obligations.MultiplyIsExactOrFaults := by
  intro s n hic hn
  have hn' : n < 100 := Nat.lt_succ_of_le hn
  obtain ⟨hin, hout⟩ := exact_or_accRange_of_writeChecked (exec_multiply_of_lt (Nat.lt_succ_of_le hic) hn')
  exact ⟨decode_compose (c := 33) (by decide) hn', hin, hout, abs_mul_le_of_inRange⟩

end Sys2Proof.Machine
end

section
/-! PROOFS. NOP (44_no_operation.md R160): the Words that decode to one, and its cycle. -/

namespace Sys2Proof

/-! ### The Words of a NOP -/

/-- The dispatch answers a NOP exactly for the opcodes that none of its twelve arms names. -/
theorem dispatch_eq_nop_iff {c d : Int} : (∃ opc opd, dispatch c d = .nop opc opd) ↔ c ∉ recognisedOpcodes := by
  refine ⟨fun ⟨opc, opd, hnop⟩ hc => ?_, fun hc => ⟨c, d, dispatch_nop d hc⟩⟩
  simp only [recognisedOpcodes, List.mem_cons, List.not_mem_nil, or_false] at hc
  rcases hc with rfl | rfl | rfl | rfl | rfl | rfl | rfl | rfl | rfl | rfl | rfl | rfl <;> cases hnop

/-- The recognised opcodes stand in four runs, so their Words are four intervals. -/
theorem opc_mem_recognisedOpcodes_iff {w : Int} : tdiv w 100 ∈ recognisedOpcodes ↔
    (1000 ≤ w ∧ w ≤ 1199) ∨ (2000 ≤ w ∧ w ≤ 2199) ∨ (3000 ≤ w ∧ w ≤ 3399) ∨ (4000 ≤ w ∧ w ≤ 4399) := by
  simp (disch := decide) only [recognisedOpcodes, List.mem_cons, List.not_mem_nil, or_false, ← opc_eq_iff]
  omega

/-- A Word decodes to a NOP exactly when its opcode is none of the twelve. -/
theorem decode_eq_nop_iff {w : Int} (hw : inRange w) :
    (∃ opc opd, decode w = .ok (.nop opc opd)) ↔ tdiv w 100 ∉ recognisedOpcodes := by
  rw [decode_word hw, ← dispatch_eq_nop_iff (d := tmod w 100)]
  simp only [Except.ok.injEq]

end Sys2Proof

namespace Sys2Proof.Machine

variable {s : State}

/-! ### The cycle of a NOP -/

/-- Inside the address space a NOP always completes, with nothing between the fetch and the advance. -/
theorem exec_nop_of_lt {opc opd : Int} (hic : s.ic < 100) : exec (.nop opc opd) s = .next s.fetched.advanced := by
  calc exec (.nop opc opd) s
      = withFetched s completeCycle := rfl
    _ = completeCycle s.fetched := withFetched_of_lt hic

/-- Settles O31: the five ranges are the Words outside the four intervals of recognised opcodes, and `exec_nop_of_lt`
is the cycle. -/
theorem nopOnlyAdvances : Obligations.NopOnlyAdvances := by
  refine ⟨fun w hlo hhi => ?_, fun s opc opd hic => ?_⟩
  · rw [decode_eq_nop_iff (inRange_iff.2 ⟨hlo, hhi⟩), opc_mem_recognisedOpcodes_iff]
    omega
  · rw [exec_nop_of_lt (Nat.lt_succ_of_le hic), State.advanced_eq_claims_onward, State.fetched_eq_claims_fetched]

end Sys2Proof.Machine
end

section
/-! PROOFS. The host's Validator (70_reset_and_hazards.md R207): the items that it accepts. -/

namespace Sys2Proof.Machine

/-- The Validator's two tests are the sentinel and the range of a Word. -/
theorem validator_iff {w : Int} : validator w = true ↔ w = sentinel ∨ inRange w := by
  rw [validator, Bool.or_eq_true, decide_eq_true_iff, decide_eq_true_iff]

/-- Settles O48: `validator_iff` with the sentinel and the bounds of a Word as numerals; the seven examples are
evaluated. -/
theorem validatorAcceptsWordsAndSentinel : Obligations.ValidatorAcceptsWordsAndSentinel := by
  refine ⟨fun w => ?_, ?_⟩
  · rw [validator_iff, sentinel_eq, inRange_iff]
  · decide

end Sys2Proof.Machine
end

section
/-! PROOFS. Decoding and encoding (30_encoding.md R71, R72, R74, R76, R82): the dispatch has a left inverse on the
well-formed instructions, and each Word is the Word of exactly one of them. -/

namespace Sys2Proof

/-! ### The dispatch of two fields -/

/-- The dispatch of a well-formed instruction's own fields is the instruction. -/
theorem dispatch_opcode_operand {i : Instr} (h : i.wellFormed = true) : dispatch i.opcode i.operand = i := by
  cases i with
  | nop c d => exact dispatch_nop d (nopFieldsOk_iff.1 h).2.2.2
  | _ => rfl

/-- The fields of a well-formed instruction's Word are its own. -/
theorem encodedFields_of_wellFormed (i : Instr) : Laws.EncodedFields.Statement i := by
  cases i with
  | read n => exact Laws.EncodedFields.read n
  | write n => exact Laws.EncodedFields.write n
  | load n => exact Laws.EncodedFields.load n
  | store n => exact Laws.EncodedFields.store n
  | add n => exact Laws.EncodedFields.add n
  | subtract n => exact Laws.EncodedFields.subtract n
  | divide n => exact Laws.EncodedFields.divide n
  | multiply n => exact Laws.EncodedFields.multiply n
  | branch k => exact Laws.EncodedFields.branch k
  | branchneg k => exact Laws.EncodedFields.branchneg k
  | branchzero k => exact Laws.EncodedFields.branchzero k
  | halt n => exact Laws.EncodedFields.halt n
  | nop c d => exact Laws.EncodedFields.nop c d

/-- Settles O1: the Word splits into the instruction's own fields, and their dispatch is the instruction. -/
theorem decodeOfEncodeIsTheInstruction : Obligations.DecodeOfEncodeIsTheInstruction := by
  intro i hi
  obtain ⟨hword, hopc, hopd⟩ := encodedFields_of_wellFormed i hi
  rw [decode_word hword, hopc, hopd, dispatch_opcode_operand hi]

/-! ### Every Word -/

theorem recognisedOpcodes_bounds {c : Int} (h : c ∈ recognisedOpcodes) : 10 ≤ c ∧ c ≤ 43 := by
  simp only [recognisedOpcodes, List.mem_cons, List.not_mem_nil, or_false] at h
  omega

/-- The arm of a recognised opcode keeps a non-negative operand, and is well-formed if the operand is below 100. -/
theorem dispatch_recognised {c : Int} (n : Nat) (h : c ∈ recognisedOpcodes) :
    (dispatch c n).operand = n ∧ ((dispatch c n).wellFormed = true ↔ n < 100) := by
  simp only [recognisedOpcodes, List.mem_cons, List.not_mem_nil, or_false] at h
  rcases h with rfl | rfl | rfl | rfl | rfl | rfl | rfl | rfl | rfl | rfl | rfl | rfl <;>
    exact ⟨rfl, operandOk_iff⟩

/-- The dispatch of the two fields of a Word is a well-formed instruction with that operand. -/
theorem dispatch_fields {w : Int} (hw : inRange w) :
    (dispatch (tdiv w 100) (tmod w 100)).wellFormed = true ∧
      (dispatch (tdiv w 100) (tmod w 100)).operand = tmod w 100 := by
  obtain ⟨hlo, hhi⟩ := opd_bounds w
  by_cases hc : tdiv w 100 ∈ recognisedOpcodes
  · have hpos : 0 ≤ w := by
      by_contra hneg
      have hnonpos := (fields_nonpos (w := w) (by omega)).1
      have hten := (recognisedOpcodes_bounds hc).1
      omega
    obtain ⟨n, hn⟩ := Int.eq_ofNat_of_zero_le (fields_nonneg hpos).2
    obtain ⟨hoperand, hwf⟩ := dispatch_recognised n hc
    rw [hn]
    exact ⟨hwf.2 (by omega), hoperand⟩
  · rw [dispatch_nop _ hc]
    refine ⟨nopFieldsOk_iff.2 ⟨opc_bounds hw, ⟨hlo, hhi⟩, ?_, hc⟩, rfl⟩
    exact (le_total 0 w).imp fields_nonneg fields_nonpos

/-- What a Word decodes to is well-formed: its operand is an address (30_encoding.md R76). -/
theorem wellFormed_of_decode {w : Int} {i : Instr} (h : decode w = .ok i) : i.wellFormed = true := by
  obtain ⟨hw, rfl⟩ := decode_ok_iff.1 h
  exact (dispatch_fields hw).1

/-- What a Word decodes to encodes to that Word. -/
theorem encode_of_decode {w : Int} {i : Instr} (h : decode w = .ok i) : encode i = w := by
  obtain ⟨hw, rfl⟩ := decode_ok_iff.1 h
  rw [encode, dispatch_opcode, (dispatch_fields hw).2, ← fields_compose]

/-- Settles O2: the Word's own decoding is the instruction, and any other one with this Word is decoded from it. -/
theorem everyWordIsOneInstruction : Obligations.EveryWordIsOneInstruction := by
  intro w hlo hhi
  have hdecode := decode_word (inRange_iff.2 ⟨hlo, hhi⟩)
  refine ⟨_, hdecode, wellFormed_of_decode hdecode, encode_of_decode hdecode, fun j hj hw => ?_⟩
  have hdecode' := decodeOfEncodeIsTheInstruction j hj
  rw [hw, hdecode] at hdecode'
  exact (Except.ok.inj hdecode').symm

/-- Settles O5: the decoder is evaluated on the seventeen Words of the table. -/
theorem decodeExamplesOfTheSpec : Obligations.DecodeExamplesOfTheSpec := by
  refine ⟨?_, ?_, ?_, ?_, ?_, ?_, ?_, ?_, ?_, ?_, ?_, ?_, ?_, ?_, ?_, ?_, ?_⟩ <;> rfl

/-- Settles O6: the range test of `decode` is its only rejection. -/
theorem nonWordsAreRejected : Obligations.NonWordsAreRejected := by
  intro w hw
  exact if_neg (Machine.not_inRange_iff.2 hw)

end Sys2Proof
end

section
/-! PROOFS. The fetch and the step of a running machine (10_state.md R39), and the cycles of READ, the branches and HALT
(40_io.md R100; 43_control_transfer.md R140 to R147) as equations. -/

namespace Sys2Proof.Machine

variable {s t : State}

/-! ### The fetch and the step -/

theorem fetch_eq_ok_iff {i : Instr} : fetch s = .ok i ↔ s.ic < 100 ∧ decode (s.mem.read s.ic) = .ok i := by
  unfold fetch
  split
  case isTrue hic =>
    rw [and_iff_right hic]
    cases decode (s.mem.read s.ic) with
    | ok j => simp
    | error e => cases e; simp
  case isFalse hic => simp [hic]

theorem step_of_fetch {i : Instr} (hrun : s.status = .running) (hf : fetch s = .ok i) : step s = exec i s := by
  rw [step_running hrun, runCycle, hf]

/-- A step of a running machine that answers a next state is the cycle of the fetched instruction. -/
theorem step_running_next (hrun : s.status = .running) (h : step s = .next t) :
    ∃ i, fetch s = .ok i ∧ exec i s = .next t := by
  cases hf : fetch s with
  | ok i => exact ⟨i, rfl, step_of_fetch hrun hf ▸ h⟩
  | error f =>
    rw [step_running hrun, runCycle, hf] at h
    cases h

/-- Settles O8: the fetch answers the instruction that the cell decodes to. -/
theorem stepRunsTheDecodedInstruction : Obligations.StepRunsTheDecodedInstruction := by
  intro s i hrun hic hdecode
  exact step_of_fetch hrun (fetch_eq_ok_iff.2 ⟨Nat.lt_succ_of_le hic, hdecode⟩)

/-! ### Taking a branch -/

theorem State.branched_legacy (h : s.cycleMode = .strictLegacy) (k : Nat) : s.branched k = (s.setIc k).advanced := by
  unfold State.branched
  rw [h]

/-- No target is 100, so the end test of a corrected branch never stops the run. -/
theorem State.branched_corrected {k : Nat} (h : s.cycleMode = .corrected) (hk : k < 100) : s.branched k = s.setIc k := by
  unfold State.branched
  rw [h]
  exact if_neg (Nat.ne_of_lt hk)

@[simp] theorem State.branched_mem (k : Nat) : (s.branched k).mem = s.mem := by
  unfold State.branched
  cases s.cycleMode <;> simp

@[simp] theorem State.branched_acc (k : Nat) : (s.branched k).acc = s.acc := by
  unfold State.branched
  cases s.cycleMode <;> simp

@[simp] theorem State.branched_cycleMode (k : Nat) : (s.branched k).cycleMode = s.cycleMode := by
  unfold State.branched
  split <;> simp

@[simp] theorem State.branched_input (k : Nat) : (s.branched k).input = s.input := by
  unfold State.branched
  cases s.cycleMode <;> simp

@[simp] theorem State.branched_trace (k : Nat) : (s.branched k).trace = s.trace := by
  unfold State.branched
  cases s.cycleMode <;> simp

@[simp] theorem State.branched_loadAddr (k : Nat) : (s.branched k).loadAddr = s.loadAddr := by
  unfold State.branched
  cases s.cycleMode <;> simp

theorem State.branched_eq_claims_branchedTo {k : Nat} (hk : k < 100) : s.branched k = Claims.branchedTo k s := by
  unfold Claims.branchedTo
  split
  case h_1 hm => rw [State.branched_legacy hm, State.advanced_eq_claims_onward]; rfl
  case h_2 hm => exact State.branched_corrected hm hk

/-! ### The cycles of READ, the branches and HALT -/

theorem exec_read_waits (n : Nat) (hic : s.ic < 100) (hin : s.input = []) : exec (.read n) s = .next s := by
  rw [exec, execRead, withFetched_of_lt hic, State.fetched_input, hin]

theorem exec_read_of_word {v : Int} {rest : List Int} (n : Nat) (hic : s.ic < 100) (hin : s.input = v :: rest)
    (hv : inRange v) : exec (.read n) s = storeWord n v ((s.fetched.setInput rest).emit .readPrompt) := by
  rw [exec, execRead, withFetched_of_lt hic, State.fetched_input, hin]
  exact if_pos hv

theorem exec_read_of_not_word {v : Int} {rest : List Int} (n : Nat) (hic : s.ic < 100) (hin : s.input = v :: rest)
    (hv : ¬ inRange v) :
    exec (.read n) s = .next (((s.fetched.setInput rest).emit .readPrompt).setStatus (.faulted .readRange)) := by
  rw [exec, execRead, withFetched_of_lt hic, State.fetched_input, hin]
  exact if_neg hv

/-- A READ of a Word stores it and completes. -/
theorem exec_read_stores {n : Nat} {v : Int} {rest : List Int} (hic : s.ic < 100) (hn : n < 100)
    (hin : s.input = v :: rest) (hv : inRange v) :
    exec (.read n) s = .next (((s.fetched.setInput rest).emit .readPrompt).setCell n v).advanced := by
  rw [exec_read_of_word n hic hin hv, storeWord_of_lt hn]
  rfl

theorem exec_branch_of_lt {k : Nat} (hic : s.ic < 100) (hk : k < 100) :
    exec (.branch k) s = .next (s.fetched.branched k) := by
  rw [exec, execBranch, withFetched_of_lt hic, branchIf_of_lt hk, if_pos rfl, takeBranch_eq]

theorem exec_branchneg_of_lt {k : Nat} (hic : s.ic < 100) (hk : k < 100) :
    exec (.branchneg k) s = .next (if s.acc < 0 then s.fetched.branched k else s.fetched.advanced) := by
  rw [exec, execBranchneg, withFetched_of_lt hic, branchIf_of_lt hk, takeBranch_eq, State.accNegative,
    State.fetched_acc]
  by_cases h : s.acc < 0 <;> simp [h, completeCycle]

theorem exec_branchzero_of_lt {k : Nat} (hic : s.ic < 100) (hk : k < 100) :
    exec (.branchzero k) s = .next (if s.acc = 0 then s.fetched.branched k else s.fetched.advanced) := by
  rw [exec, execBranchzero, withFetched_of_lt hic, branchIf_of_lt hk, takeBranch_eq, State.accZero,
    State.fetched_acc]
  by_cases h : s.acc = 0 <;> simp [h, completeCycle]

theorem exec_halt_legacy (n : Nat) (hic : s.ic < 100) (h : s.cycleMode = .strictLegacy) :
    exec (.halt n) s = .next (s.fetched.emit (.diag s.fetched.snapshot)).advanced := by
  rw [exec, execHalt, withFetched_of_lt hic, State.fetched_cycleMode, h]
  rfl

theorem exec_halt_corrected (n : Nat) (hic : s.ic < 100) (h : s.cycleMode = .corrected) :
    exec (.halt n) s = .next ((s.fetched.emit (.diag s.fetched.snapshot)).setStatus .stopped) := by
  rw [exec, execHalt, withFetched_of_lt hic, State.fetched_cycleMode, h]

/-! ### A cycle goes on inside the address space -/

theorem writeChecked_goes_on (r : Int) (s : State) : ∃ t, writeChecked r s = .next t := by
  unfold writeChecked
  split <;> exact ⟨_, rfl⟩

theorem writeQuotient_goes_on (d : Int) (s : State) : ∃ t, writeQuotient d s = .next t := by
  unfold writeQuotient
  split <;> exact ⟨_, rfl⟩

theorem exec_read_goes_on {n : Nat} (hic : s.ic < 100) (hn : n < 100) : ∃ t, exec (.read n) s = .next t := by
  cases hin : s.input with
  | nil => exact ⟨s, exec_read_waits n hic hin⟩
  | cons v rest =>
    by_cases hv : inRange v
    · exact ⟨_, exec_read_stores hic hn hin hv⟩
    · exact ⟨_, exec_read_of_not_word n hic hin hv⟩

theorem exec_halt_goes_on (n : Nat) (hic : s.ic < 100) : ∃ t, exec (.halt n) s = .next t := by
  cases hm : s.cycleMode with
  | strictLegacy => exact ⟨_, exec_halt_legacy n hic hm⟩
  | corrected => exact ⟨_, exec_halt_corrected n hic hm⟩

/-- Inside the address space the cycle of every well-formed instruction answers a next state (20_memory.md R51). -/
theorem exec_goes_on {i : Instr} (hic : s.ic < 100) (hi : i.wellFormed = true) : ∃ t, exec i s = .next t := by
  cases i with
  | read n => exact exec_read_goes_on hic (operandOk_iff.1 hi)
  | write n => exact ⟨_, exec_write_of_lt hic (operandOk_iff.1 hi)⟩
  | load n => exact ⟨_, exec_load_of_lt hic (operandOk_iff.1 hi)⟩
  | store n => exact ⟨_, exec_store_of_lt hic (operandOk_iff.1 hi)⟩
  | add n => exact exec_add_of_lt hic (operandOk_iff.1 hi) ▸ writeChecked_goes_on _ _
  | subtract n => exact exec_subtract_of_lt hic (operandOk_iff.1 hi) ▸ writeChecked_goes_on _ _
  | divide n => exact exec_divide_of_lt hic (operandOk_iff.1 hi) ▸ writeQuotient_goes_on _ _
  | multiply n => exact exec_multiply_of_lt hic (operandOk_iff.1 hi) ▸ writeChecked_goes_on _ _
  | branch k => exact ⟨_, exec_branch_of_lt hic (operandOk_iff.1 hi)⟩
  | branchneg k => exact ⟨_, exec_branchneg_of_lt hic (operandOk_iff.1 hi)⟩
  | branchzero k => exact ⟨_, exec_branchzero_of_lt hic (operandOk_iff.1 hi)⟩
  | halt n => exact exec_halt_goes_on n hic
  | nop c d => exact ⟨_, exec_nop_of_lt hic⟩

/-! ### Outside the address space -/

/-- Every cycle begins with the fetch, which stops by name with the counter outside memory. -/
theorem exec_of_counter_outside (i : Instr) (h : 100 ≤ s.ic) : exec i s = .fault (.fetchOutsideMemory s.ic) := by
  have hfetch (arm : State → Result) : withFetched s arm = .fault (.fetchOutsideMemory s.ic) :=
    if_neg (Nat.not_lt.2 h)
  cases i <;> simp only [exec, execRead, execWrite, execLoad, execStore, execAdd, execSubtract, execDivide, execMultiply,
    execBranch, execBranchneg, execBranchzero, execHalt, execNop, hfetch]

theorem withWord_of_ge {n : Nat} (use : Int → Result) (h : 100 ≤ n) :
    withWord n s use = .fault (.addressOutsideMemory n) := if_neg (Nat.not_lt.2 h)

theorem storeWord_of_ge {n : Nat} (v : Int) (h : 100 ≤ n) : storeWord n v s = .fault (.addressOutsideMemory n) :=
  if_neg (Nat.not_lt.2 h)

theorem branchIf_of_ge {k : Nat} (taken : Bool) (h : 100 ≤ k) :
    branchIf taken k s = .fault (.addressOutsideMemory k) := if_neg (Nat.not_lt.2 h)

/-- Settles O46: the fetch checks the counter, and each of the three operand forms checks the operand. -/
theorem outsideMemoryStopsByName : Obligations.OutsideMemoryStopsByName := by
  intro s
  refine ⟨fun hic i => exec_of_counter_outside i hic, fun hic n hn => ?_⟩
  have hword (use : State → Int → Result) :
      (withFetched s fun f => withWord n f (use f)) = .fault (.addressOutsideMemory n) := by
    rw [withFetched_of_lt (Nat.lt_succ_of_le hic), withWord_of_ge _ hn]
  have hbranch (taken : State → Bool) :
      (withFetched s fun f => branchIf (taken f) n f) = .fault (.addressOutsideMemory n) := by
    rw [withFetched_of_lt (Nat.lt_succ_of_le hic), branchIf_of_ge _ hn]
  have hstore : exec (.store n) s = .fault (.addressOutsideMemory n) := by
    rw [exec, execStore, withFetched_of_lt (Nat.lt_succ_of_le hic), storeWord_of_ge _ hn]
  refine ⟨hword fun f v => completeCycle (f.emit (.out v)), hword fun f v => completeCycle (f.setAcc v), hstore,
    hword fun f v => writeChecked (f.acc + v) f, hword fun f v => writeChecked (f.acc - v) f,
    hword fun f d => writeQuotient d f, hword fun f v => writeChecked (f.acc * v) f,
    hbranch fun _ => true, hbranch State.accNegative, hbranch State.accZero, ?_⟩
  intro v rest hin hlo hhi
  rw [exec_read_of_word n (Nat.lt_succ_of_le hic) hin (inRange_iff.2 ⟨hlo, hhi⟩), storeWord_of_ge _ hn]

end Sys2Proof.Machine
end

section
/-! PROOFS. The invariant (10_state.md R41): each update of the state keeps it under that update's own condition, so
every turn of the Loader, every cycle and every move of the host keeps it. -/

namespace Sys2Proof

/-- The quotient of a Word is no larger than the Word (42_arithmetic.md R125). -/
theorem abs_tdiv_le (a d : Int) : |tdiv a d| ≤ |a| := by
  rw [abs_tdiv]
  exact Int.ediv_le_self _ (abs_nonneg a)

theorem inRange_tdiv {a : Int} (d : Int) (ha : inRange a) : inRange (tdiv a d) :=
  abs_le.1 ((abs_tdiv_le a d).trans (abs_le.2 ha))

/-- Settles O34: the magnitude of the quotient is a quotient of magnitudes. -/
theorem quotientOfAWordIsAWord : Obligations.QuotientOfAWordIsAWord := by
  intro a d hlo hhi _
  exact ⟨abs_tdiv_le a d, inRange_tdiv d ⟨hlo, hhi⟩⟩

end Sys2Proof

namespace Sys2Proof.Machine

variable {s t : State}

/-! ### The advance with and without the end of the run -/

theorem State.advanced_of_ne (h : s.ic ≠ 99) : s.advanced = s.setIc (s.ic + 1) := if_neg (by simpa using h)

theorem State.advanced_of_eq (h : s.ic = 99) : s.advanced = (s.setIc 100).setStatus .stopped := by
  rw [State.advanced, h]
  rfl

/-! ### The updates of the state -/

theorem Inv.fetched (h : Inv s) : Inv s.fetched :=
  { h with irIsWord := h.cellsAreWords s.ic, fieldsOfIr := ⟨rfl, rfl⟩ }

theorem Inv.setAcc {v : Int} (h : Inv s) (hv : inRange v) : Inv (s.setAcc v) := { h with accIsWord := hv }

theorem Inv.setCell {a : Nat} {v : Int} (h : Inv s) (ha : a < 100) (hv : inRange v) : Inv (s.setCell a v) :=
  { h with
    memCanonical := Memory.wf_write v h.memCanonical ha
    cellsAreWords := fun b => by
      rw [State.setCell_mem, Memory.read_write h.memCanonical]
      split
      · exact hv
      · exact h.cellsAreWords b }

theorem Inv.setInput (h : Inv s) (items : List Int) : Inv (s.setInput items) := { h with }

theorem Inv.emit (h : Inv s) (e : Event) : Inv (s.emit e) := { h with }

theorem Inv.setLoadAddr {a : Nat} (h : Inv s) (ha : a ≤ 100) : Inv (s.setLoadAddr a) := { h with loaderBound := ha }

theorem Inv.setIc {k : Nat} (h : Inv s) (hrun : s.status = .running) (hk : k ≤ 99) : Inv (s.setIc k) :=
  { h with
    counterBound := Nat.le_succ_of_le hk
    runningCounter := fun _ => hk
    idleCounter := fun hidle => by cases hrun.symm.trans hidle
    stoppedCounter := fun hstop => by cases hrun.symm.trans hstop
    faultedCounter := fun _ _ => hk }

/-- A fault of a running machine keeps the invariant: the counter is the address of an instruction. -/
theorem Inv.faulted (h : Inv s) (hrun : s.status = .running) (k : FaultKind) : Inv (s.setStatus (.faulted k)) :=
  { h with
    runningCounter := fun _ => h.runningCounter hrun
    idleCounter := fun hidle => by cases hidle
    stoppedCounter := fun hstop => by cases hstop
    faultedCounter := fun _ _ => h.runningCounter hrun }

/-- A stop keeps the invariant at 100, and anywhere in corrected mode. -/
theorem Inv.stopped (h : Inv s) (hic : s.cycleMode = .strictLegacy → s.ic = 100) : Inv (s.setStatus .stopped) :=
  { h with
    runningCounter := fun hrun => by cases hrun
    idleCounter := fun hidle => by cases hidle
    stoppedCounter := fun _ => hic
    faultedCounter := fun _ hfault => by cases hfault }

theorem Inv.advanced (h : Inv s) (hrun : s.status = .running) : Inv s.advanced := by
  by_cases hic : s.ic = 99
  · rw [State.advanced_of_eq hic]
    exact
      { h with
        counterBound := le_refl 100
        runningCounter := fun hrun' => by cases hrun'
        idleCounter := fun hidle => by cases hidle
        stoppedCounter := fun _ _ => rfl
        faultedCounter := fun _ hfault => by cases hfault }
  · rw [State.advanced_of_ne hic]
    exact h.setIc hrun (Nat.lt_of_le_of_ne (h.runningCounter hrun) hic)

theorem Inv.branched {k : Nat} (h : Inv s) (hrun : s.status = .running) (hk : k < 100) : Inv (s.branched k) := by
  have hset : Inv (s.setIc k) := h.setIc hrun (Nat.le_of_lt_succ hk)
  cases hm : s.cycleMode with
  | strictLegacy => rw [State.branched_legacy hm]; exact hset.advanced hrun
  | corrected => rw [State.branched_corrected hm hk]; exact hset

theorem Inv.startSignal (h : Inv s) : Inv (startSignal s) := by
  by_cases hidle : s.status = .idle
  · rw [startSignal_idle hidle]
    have hic : s.ic ≤ 99 := by rw [h.idleCounter hidle]; decide
    refine Inv.emit (s := s.setStatus .running) ?_ _
    exact
      { h with
        runningCounter := fun _ => hic
        idleCounter := fun hidle' => by cases hidle'
        stoppedCounter := fun hstop => by cases hstop
        faultedCounter := fun _ hfault => by cases hfault }
  · rwa [Machine.startSignal, if_neg hidle]

theorem Inv.resetWith (mode : CycleMode) {v : Int} (hv : inRange v) : Inv (State.resetWith mode v) where
  memCanonical := rfl
  cellsAreWords _ := (by decide : inRange 0)
  accIsWord := hv
  irIsWord := (by decide : inRange 0)
  fieldsOfIr := (by decide : (0 : Int) = tdiv 0 100 ∧ (0 : Int) = tmod 0 100)
  counterBound := Nat.zero_le 100
  runningCounter hrun := by cases hrun
  idleCounter _ := rfl
  stoppedCounter hstop := by cases hstop
  faultedCounter _ hfault := by cases hfault
  loaderBound := Nat.zero_le 100

/-! ### Steps -/

theorem LoaderCase.keeps_inv (h : LoaderCase s t) (hs : Inv s) : Inv t := by
  cases h with
  | waits => exact hs
  | full => exact hs.startSignal
  | ends room rest => exact (((hs.setInput rest).emit _).setCell room (by decide)).startSignal
  | stores room w rest _ word => exact (((hs.setInput rest).emit _).setCell room word).setLoadAddr room
  | rejects room w rest => exact ((hs.setInput rest).emit _).emit _

theorem CycleCase.keeps_inv {i : Instr} (h : CycleCase s i t) (hs : Inv s) (hrun : s.status = .running) : Inv t := by
  have hf : Inv s.fetched := hs.fetched
  cases h with
  | readWaits => exact hs
  | readStores n v rest _ word addr => exact (((hf.setInput rest).emit _).setCell addr word).advanced hrun
  | readFaults n v rest => exact ((hf.setInput rest).emit _).faulted hrun _
  | write => exact (hf.emit _).advanced hrun
  | load n => exact (hf.setAcc (hs.cellsAreWords n)).advanced hrun
  | store n addr => exact (hf.setCell addr hs.accIsWord).advanced hrun
  | add n _ word | subtract n _ word | multiply n _ word => exact (hf.setAcc word).advanced hrun
  | divide n => exact (hf.setAcc (inRange_tdiv _ hs.accIsWord)).advanced hrun
  | addFaults | subtractFaults | multiplyFaults | divideFaults => exact hf.faulted hrun _
  | branch k addr | branchnegTaken k addr | branchzeroTaken k addr => exact hf.branched hrun addr
  | branchnegNot | branchzeroNot | nop => exact hf.advanced hrun
  | haltLegacy => exact (hf.emit _).advanced hrun
  | haltCorrected n mode => exact (hf.emit _).stopped fun legacy => by cases mode.symm.trans legacy

/-- Everything a step can do, by the status: a turn of the Loader, a cycle, or nothing. -/
theorem step_next (h : step s = .next t) :
    (s.status = .idle ∧ LoaderCase s t) ∨
    (s.status = .running ∧ ∃ i, fetch s = .ok i ∧ CycleCase s i t) ∨
    ((s.status = .stopped ∨ ∃ k, s.status = .faulted k) ∧ t = s) := by
  cases hs : s.status with
  | idle =>
    obtain ⟨u, hu, hcase⟩ := loaderStep_next (s := s)
    rw [step_idle hs, hu] at h
    cases h
    exact .inl ⟨rfl, hcase⟩
  | running =>
    obtain ⟨i, hf, hexec⟩ := step_running_next hs h
    exact .inr (.inl ⟨rfl, i, hf, (exec_next hexec).2⟩)
  | stopped =>
    rw [step_stopped hs] at h
    cases h
    exact .inr (.inr ⟨.inl rfl, rfl⟩)
  | faulted k =>
    rw [step_faulted hs] at h
    cases h
    exact .inr (.inr ⟨.inr ⟨k, rfl⟩, rfl⟩)

/-- Settles O15: the Loader's cases and the cycles' cases are chains of updates that keep the invariant. -/
theorem everyStepKeepsInv : Obligations.EveryStepKeepsInv := by
  intro s t hs h
  obtain ⟨-, hcase⟩ | ⟨hrun, i, -, hcase⟩ | ⟨-, rfl⟩ := step_next h
  · exact hcase.keeps_inv hs
  · exact hcase.keeps_inv hs hrun
  · exact hs

/-- Settles O14: the values of reset, one by one. -/
theorem invHoldsAtReset : Obligations.InvHoldsAtReset := by
  intro mode v hlo hhi
  exact Inv.resetWith mode ⟨hlo, hhi⟩

/-- Settles O16: the Loader always goes on; a running machine fetches a Word, whose instruction is well-formed. -/
theorem everyStepGoesOnUnderInv : Obligations.EveryStepGoesOnUnderInv := by
  intro s hs
  cases hst : s.status with
  | idle =>
    obtain ⟨t, ht, -⟩ := loaderStep_next (s := s)
    exact ⟨t, (step_idle hst).trans ht⟩
  | running =>
    have hic : s.ic < 100 := Nat.lt_succ_of_le (hs.runningCounter hst)
    have hdecode := decode_word (hs.cellsAreWords s.ic)
    rw [step_of_fetch hst (fetch_eq_ok_iff.2 ⟨hic, hdecode⟩)]
    exact exec_goes_on hic (wellFormed_of_decode hdecode)
  | stopped => exact ⟨s, step_stopped hst⟩
  | faulted k => exact ⟨s, step_faulted hst⟩

/-! ### The host's moves -/

/-- The load port accepts exactly a Word at an address while IDLE, and writes that cell (10_state.md R34). -/
theorem loadPort_eq_some_iff {a : Nat} {w : Int} :
    loadPort a w s = some t ↔ (s.status = .idle ∧ a < 100 ∧ inRange w) ∧ s.setCell a w = t := by
  unfold loadPort
  rw [Option.ite_none_right_eq_some, Option.some.injEq, memSize_eq]

/-- Settles O17: each move is an update that keeps the invariant, and reset establishes it. -/
theorem hostMovesKeepInv : Obligations.HostMovesKeepInv := by
  intro s hs
  refine ⟨fun a w t h => ?_, hs.startSignal, fun xs => hs.setInput _, fun mode v hlo hhi => ?_⟩
  · obtain ⟨⟨-, ha, hw⟩, rfl⟩ := loadPort_eq_some_iff.1 h
    exact hs.setCell ha hw
  · exact Inv.resetWith mode ⟨hlo, hhi⟩

end Sys2Proof.Machine
end

section
/-! PROOFS. The counter, the status and the faults after a cycle (10_state.md R25, R26, R31; 43_control_transfer.md R144;
60_exceptions.md R170 to R174), from the cases of a cycle and of a turn of the Loader. -/

namespace Sys2Proof.Machine

variable {s t : State} {i : Instr} {k : FaultKind}

/-! ### The counter -/

/-- A taken branch leaves the counter that the table of R25 gives for BRANCH. -/
theorem State.branched_ic (k : Nat) : (s.branched k).ic = Claims.counterAfter (.branch k) s := by
  unfold State.branched Claims.counterAfter
  cases s.cycleMode <;> simp

theorem counterAfter_branchneg (k : Nat) : Claims.counterAfter (.branchneg k) s =
    if s.acc < 0 then Claims.counterAfter (.branch k) s else s.ic + 1 := rfl

theorem counterAfter_branchzero (k : Nat) : Claims.counterAfter (.branchzero k) s =
    if s.acc = 0 then Claims.counterAfter (.branch k) s else s.ic + 1 := rfl

/-- A cycle waits, or leaves the counter of R25's table, or faults and keeps the counter. -/
theorem CycleCase.ic_cases (h : CycleCase s i t) :
    (Claims.waiting i s ∧ t = s) ∨ t.ic = Claims.counterAfter i s ∨ ((∃ k, t.status = .faulted k) ∧ t.ic = s.ic) := by
  cases h with
  | readWaits n empty => exact .inl ⟨⟨⟨n, rfl⟩, empty⟩, rfl⟩
  | readFaults | addFaults | subtractFaults | multiplyFaults | divideFaults => exact .inr (.inr ⟨⟨_, rfl⟩, rfl⟩)
  | readStores | write | load | store | add | subtract | multiply | divide | nop =>
    exact .inr (.inl State.advanced_ic)
  | branch k => exact .inr (.inl (State.branched_ic k))
  | branchnegTaken k _ neg =>
    rw [counterAfter_branchneg, if_pos neg]
    exact .inr (.inl (State.branched_ic k))
  | branchnegNot k _ nonneg =>
    rw [counterAfter_branchneg, if_neg (Int.not_lt.2 nonneg)]
    exact .inr (.inl State.advanced_ic)
  | branchzeroTaken k _ zero =>
    rw [counterAfter_branchzero, if_pos zero]
    exact .inr (.inl (State.branched_ic k))
  | branchzeroNot k _ nonzero =>
    rw [counterAfter_branchzero, if_neg nonzero]
    exact .inr (.inl State.advanced_ic)
  | haltLegacy n mode => exact .inr (.inl (by simp [Claims.counterAfter, mode]))
  | haltCorrected n mode => exact .inr (.inl (by simp [Claims.counterAfter, mode]))

/-- In strict_legacy mode every row of R25's table adds one. -/
theorem counterAfter_pos (i : Instr) (h : s.cycleMode = .strictLegacy) : 0 < Claims.counterAfter i s := by
  have hbranch (k : Nat) : Claims.counterAfter (.branch k) s = k + 1 := by simp [Claims.counterAfter, h]
  cases i with
  | branch k => rw [hbranch]; exact Nat.succ_pos k
  | branchneg k => rw [counterAfter_branchneg, hbranch]; split <;> exact Nat.succ_pos _
  | branchzero k => rw [counterAfter_branchzero, hbranch]; split <;> exact Nat.succ_pos _
  | halt n => simp [Claims.counterAfter, h]
  | _ => exact Nat.succ_pos s.ic

/-- Settles O42: the counter of R25's table is not 0, so a counter of 0 was kept by a wait or by a fault. -/
theorem addressZeroIsNeverReentered : Obligations.AddressZeroIsNeverReentered := by
  intro i s t h hmode hic
  obtain ⟨hwait, rfl⟩ | htable | ⟨hfault, hkept⟩ := (exec_next h).2.ic_cases
  · exact ⟨hic, .inl hwait⟩
  · exact absurd (htable ▸ hic) (counterAfter_pos i hmode).ne'
  · exact ⟨hkept ▸ hic, .inr hfault⟩

/-! ### Faults -/

/-- `FaultCase s i k t`: the cycle of `i` at `s` raises the fault `k` and answers `t`, and why. -/
inductive FaultCase (s : State) : Instr → FaultKind → State → Prop where
  | read (n : Nat) (v : Int) (rest : List Int) (head : s.input = v :: rest) (out : ¬ inRange v) :
      FaultCase s (.read n) .readRange
        (((s.fetched.setInput rest).emit .readPrompt).setStatus (.faulted .readRange))
  | add (n : Nat) (out : ¬ inRange (s.acc + s.mem.read n)) :
      FaultCase s (.add n) .accRange (s.fetched.setStatus (.faulted .accRange))
  | subtract (n : Nat) (out : ¬ inRange (s.acc - s.mem.read n)) :
      FaultCase s (.subtract n) .accRange (s.fetched.setStatus (.faulted .accRange))
  | multiply (n : Nat) (out : ¬ inRange (s.acc * s.mem.read n)) :
      FaultCase s (.multiply n) .accRange (s.fetched.setStatus (.faulted .accRange))
  | divide (n : Nat) (zero : s.mem.read n = 0) :
      FaultCase s (.divide n) .divZero (s.fetched.setStatus (.faulted .divZero))

theorem State.branched_status_ne_faulted (h : s.status = .running) (j : Nat) (k : FaultKind) :
    (s.branched j).status ≠ .faulted k := by
  unfold State.branched
  cases s.cycleMode with
  | strictLegacy => exact State.advanced_status_ne_faulted (s := s.setIc j) h k
  | corrected =>
    show (s.setIc j).endTest.status ≠ _
    rw [State.endTest_status, State.setIc_status, h]
    split <;> simp

/-- A cycle of a running machine that ends FAULTED is one of the five cases. -/
theorem CycleCase.faultCase (h : CycleCase s i t) (hrun : s.status = .running) (hk : t.status = .faulted k) :
    FaultCase s i k t := by
  cases h with
  | readWaits => cases hrun.symm.trans hk
  | readFaults n v rest head out => cases Status.faulted.inj hk; exact .read n v rest head out
  | addFaults n _ out => cases Status.faulted.inj hk; exact .add n out
  | subtractFaults n _ out => cases Status.faulted.inj hk; exact .subtract n out
  | multiplyFaults n _ out => cases Status.faulted.inj hk; exact .multiply n out
  | divideFaults n _ zero => cases Status.faulted.inj hk; exact .divide n zero
  | readStores | write | load | store | add | subtract | multiply | divide | branchnegNot | branchzeroNot
    | haltLegacy | nop => exact absurd hk (State.advanced_status_ne_faulted (by exact hrun) k)
  | branch j | branchnegTaken j | branchzeroTaken j =>
    exact absurd hk (State.branched_status_ne_faulted (by exact hrun) j k)
  | haltCorrected => cases hk

/-- Settles O10: the wait is excluded, and a fault keeps the counter. -/
theorem counterAfterEveryCycle : Obligations.CounterAfterEveryCycle := by
  intro i s t h hrun hwait
  have hcase : CycleCase s i t := (exec_next h).2
  refine ⟨fun hnofault => ?_, fun k hk => ?_⟩
  · obtain ⟨hwait', -⟩ | htable | ⟨⟨k, hk⟩, -⟩ := hcase.ic_cases
    · exact absurd hwait' hwait
    · exact htable
    · exact absurd hk (hnofault k)
  · cases hcase.faultCase hrun hk <;> rfl

/-- The condition of each fault kind on the state and the instruction (60_exceptions.md R171 to R173). -/
def faultCondition (s : State) (i : Instr) : FaultKind → Prop
  | .readRange => ∃ n v rest, i = .read n ∧ s.input = v :: rest ∧ (v < -9999 ∨ 9999 < v)
  | .accRange => ∃ n r, ((i = .add n ∧ r = s.acc + s.mem.read n) ∨ (i = .subtract n ∧ r = s.acc - s.mem.read n) ∨
      (i = .multiply n ∧ r = s.acc * s.mem.read n)) ∧ (r < -9999 ∨ 9999 < r)
  | .divZero => ∃ n, i = .divide n ∧ s.mem.read n = 0

theorem FaultCase.condition (h : FaultCase s i k t) : faultCondition s i k := by
  cases h with
  | read n v rest head out => exact ⟨n, v, rest, rfl, head, not_inRange_iff.1 out⟩
  | add n out => exact ⟨n, _, .inl ⟨rfl, rfl⟩, not_inRange_iff.1 out⟩
  | subtract n out => exact ⟨n, _, .inr (.inl ⟨rfl, rfl⟩), not_inRange_iff.1 out⟩
  | multiply n out => exact ⟨n, _, .inr (.inr ⟨rfl, rfl⟩), not_inRange_iff.1 out⟩
  | divide n zero => exact ⟨n, rfl, zero⟩

/-- Under the condition of a fault kind the cycle has no other outcome. -/
theorem CycleCase.faulted_of_condition (h : CycleCase s i t) (hcond : faultCondition s i k) :
    t.status = .faulted k := by
  cases k with
  | readRange =>
    obtain ⟨n, v, rest, rfl, hin, hout⟩ := hcond
    cases h with
    | readWaits _ empty => cases hin.symm.trans empty
    | readStores _ u _ head word =>
      cases hin.symm.trans head
      exact absurd word (not_inRange_iff.2 hout)
    | readFaults => rfl
  | accRange =>
    obtain ⟨n, r, ⟨rfl, rfl⟩ | ⟨rfl, rfl⟩ | ⟨rfl, rfl⟩, hout⟩ := hcond
    · cases h with
      | add _ _ word => exact absurd word (not_inRange_iff.2 hout)
      | addFaults => rfl
    · cases h with
      | subtract _ _ word => exact absurd word (not_inRange_iff.2 hout)
      | subtractFaults => rfl
    · cases h with
      | multiply _ _ word => exact absurd word (not_inRange_iff.2 hout)
      | multiplyFaults => rfl
  | divZero =>
    obtain ⟨n, rfl, hzero⟩ := hcond
    cases h with
    | divide _ _ nonzero => exact absurd hzero nonzero
    | divideFaults => rfl

theorem CycleCase.faulted_iff (h : CycleCase s i t) (hrun : s.status = .running) (k : FaultKind) :
    t.status = .faulted k ↔ faultCondition s i k :=
  ⟨fun hk => (h.faultCase hrun hk).condition, h.faulted_of_condition⟩

/-- Settles O12: `CycleCase.faulted_iff` at the three kinds. -/
theorem faultsExactlyOnTheirConditions : Obligations.FaultsExactlyOnTheirConditions := by
  intro i s t h hrun
  have hiff := (exec_next h).2.faulted_iff hrun
  exact ⟨hiff .readRange, hiff .accRange, hiff .divZero⟩

/-- Settles O13: READ's fault took one item and shows its prompt; the others left both channels alone. -/
theorem faultEntryChangesOnlyTheStatus : Obligations.FaultEntryChangesOnlyTheStatus := by
  intro i s t k h hrun hk
  rw [← State.fetched_eq_claims_fetched]
  cases (exec_next h).2.faultCase hrun hk with
  | read n v rest head =>
    refine ⟨rfl, ?_, ?_, fun _ => ?_, fun hne => absurd rfl (hne n)⟩
    · exact State.out_emit_readPrompt (s := s.fetched.setInput rest)
    · exact State.diag_emit_readPrompt (s := s.fetched.setInput rest)
    · rw [head]; rfl
  | add | subtract | multiply | divide =>
    exact ⟨rfl, rfl, rfl, fun ⟨n, hn⟩ => (by cases hn), fun _ => ⟨rfl, rfl⟩⟩

/-! ### The status -/

/-- The run goes on below 100, or has stopped at 100 (10_state.md R26). -/
def State.runsOrEnded (t : State) : Prop :=
  (t.status = .running ∧ t.ic ≠ 100) ∨ (t.status = .stopped ∧ t.ic = 100)

theorem State.advanced_runsOrEnded (hrun : s.status = .running) : s.advanced.runsOrEnded := by
  by_cases h : s.ic = 99
  · rw [State.advanced_of_eq h]
    exact .inr ⟨rfl, rfl⟩
  · rw [State.advanced_of_ne h]
    exact .inl ⟨hrun, show s.ic + 1 ≠ 100 by omega⟩

theorem State.branched_runsOrEnded {j : Nat} (hrun : s.status = .running) (hj : j < 100) :
    (s.branched j).runsOrEnded := by
  cases hm : s.cycleMode with
  | strictLegacy =>
    rw [State.branched_legacy hm]
    exact State.advanced_runsOrEnded (s := s.setIc j) hrun
  | corrected =>
    rw [State.branched_corrected hm hj]
    exact .inl ⟨hrun, hj.ne⟩

/-- A cycle of a running machine goes on, ends at 100 or on a corrected HALT, or faults. -/
theorem CycleCase.status_cases (h : CycleCase s i t) (hrun : s.status = .running) (hic : s.ic < 100) :
    t.runsOrEnded ∨ (t.status = .stopped ∧ s.cycleMode = .corrected ∧ ∃ n, i = .halt n) ∨
      ∃ k, t.status = .faulted k := by
  cases h with
  | readWaits => exact .inl (.inl ⟨hrun, hic.ne⟩)
  | readFaults | addFaults | subtractFaults | multiplyFaults | divideFaults => exact .inr (.inr ⟨_, rfl⟩)
  | readStores | write | load | store | add | subtract | multiply | divide | branchnegNot | branchzeroNot
    | haltLegacy | nop => exact .inl (State.advanced_runsOrEnded (by exact hrun))
  | branch j addr | branchnegTaken j addr | branchzeroTaken j addr =>
    exact .inl (State.branched_runsOrEnded (by exact hrun) addr)
  | haltCorrected n mode => exact .inr (.inl ⟨rfl, mode, n, rfl⟩)

/-- A turn of the Loader starts the run exactly with 100 addresses filled or the sentinel at the head of the input. -/
theorem LoaderCase.status_cases (h : LoaderCase s t) (hidle : s.status = .idle) :
    (t.status = .running ∧ (100 ≤ s.loadAddr ∨ s.input.head? = some (-99999))) ∨
    (t.status = .idle ∧ ¬ (100 ≤ s.loadAddr ∨ s.input.head? = some (-99999))) := by
  cases h with
  | waits room empty => exact .inr ⟨hidle, by simp [room, empty]⟩
  | full filled =>
    rw [startSignal_idle hidle]
    exact .inl ⟨rfl, .inl filled⟩
  | ends room rest head =>
    rw [startSignal_idle (by exact hidle), head]
    exact .inl ⟨rfl, .inr rfl⟩
  | stores room w rest head word =>
    have hne : w ≠ -99999 := by rw [inRange_iff] at word; omega
    exact .inr ⟨hidle, by simp [room, head, hne]⟩
  | rejects room w rest head notSentinel =>
    have hne : w ≠ -99999 := notSentinel
    exact .inr ⟨hidle, by simp [room, head, hne]⟩

/-- Settles O11: a step by the status it begins in; reset gives IDLE by definition. -/
theorem statusTransitions : Obligations.StatusTransitions := by
  refine ⟨fun s t h => ⟨fun hidle => ?_, fun hrun => ?_, fun hstop => ?_, fun k hfault => ?_⟩, fun _ _ _ => rfl⟩
  · obtain ⟨u, hu, hcase⟩ := loaderStep_next (s := s)
    rw [step_idle hidle, hu] at h
    cases h
    exact hcase.status_cases hidle
  · obtain ⟨i, hf, hexec⟩ := step_running_next hrun h
    obtain ⟨hic, hcase⟩ := exec_next hexec
    obtain (hruns | ⟨hstop, hend⟩) | ⟨hstop, hmode, n, rfl⟩ | hfault := hcase.status_cases hrun hic
    · exact .inl hruns
    · exact .inr (.inl ⟨hstop, .inl hend⟩)
    · exact .inr (.inl ⟨hstop, .inr ⟨hmode, n, hf⟩⟩)
    · exact .inr (.inr hfault)
  · rw [step_stopped hstop] at h
    cases h
    rfl
  · rw [step_faulted hfault] at h
    cases h
    rfl

end Sys2Proof.Machine
end

section
/-! PROOFS. What each instruction leaves alone (10_state.md R21, R22, R35 to R37; 00_scope.md R9; 20_memory.md R55, R58),
from the cases of a cycle. -/

namespace Sys2Proof.Machine

variable {s t : State} {i : Instr}

/-! ### The accumulator -/

/-- Settles O35: every case of a cycle but the five instructions' own keeps the accumulator. -/
theorem accWrittenByFiveInstructionsOnly : Obligations.AccWrittenByFiveInstructionsOnly := by
  intro i s t h hne
  cases (exec_next h).2 with
  | load n | add n | subtract n | divide n | multiply n => simpa using hne n
  | readWaits | readFaults | addFaults | subtractFaults | multiplyFaults | divideFaults | haltCorrected => rfl
  | readStores | write | store | branchnegNot | branchzeroNot | haltLegacy | nop => exact State.advanced_acc
  | branch k | branchnegTaken k | branchzeroTaken k => exact State.branched_acc k

/-! The end of a cycle does not look at the accumulator. -/

theorem State.endTest_setAcc (v : Int) : (s.setAcc v).endTest = s.endTest.setAcc v := by
  unfold State.endTest
  rw [State.setAcc_ic]
  split <;> rfl

theorem State.advanced_setAcc (v : Int) : (s.setAcc v).advanced = s.advanced.setAcc v :=
  State.endTest_setAcc (s := s.setIc (s.ic + 1)) v

theorem State.branched_setAcc (v : Int) (k : Nat) : (s.setAcc v).branched k = (s.branched k).setAcc v := by
  unfold State.branched
  rw [State.setAcc_cycleMode]
  cases s.cycleMode with
  | strictLegacy => exact State.advanced_setAcc (s := s.setIc k) v
  | corrected => exact State.endTest_setAcc (s := s.setIc k) v

/-- Settles O36: each case of the four instructions has the same reason with any accumulator, and ends in the same
state but for it. -/
theorem fourInstructionsIgnoreAcc : Obligations.FourInstructionsIgnoreAcc := by
  intro i s t v hi h
  obtain ⟨hic, hcase⟩ := exec_next h
  show exec i (s.setAcc v) = .next (t.setAcc v)
  obtain ⟨n, rfl⟩ | ⟨n, rfl⟩ | ⟨k, rfl⟩ | ⟨c, d, rfl⟩ := hi
  · cases hcase with
    | readWaits _ empty => exact exec_read_waits n hic empty
    | readStores _ u rest head word addr =>
      rw [exec_read_stores (s := s.setAcc v) hic addr head word, ← State.advanced_setAcc]
      rfl
    | readFaults _ u rest head out => exact exec_read_of_not_word (s := s.setAcc v) n hic head out
  · cases hcase with
    | write _ addr =>
      rw [exec_write_of_lt (s := s.setAcc v) hic addr, ← State.advanced_setAcc]
      rfl
  · cases hcase with
    | branch _ addr =>
      rw [exec_branch_of_lt (s := s.setAcc v) hic addr, ← State.branched_setAcc]
      rfl
  · cases hcase with
    | nop =>
      rw [exec_nop_of_lt (s := s.setAcc v) hic, ← State.advanced_setAcc]
      rfl

/-! ### Memory -/

/-- A cycle keeps memory, or is a READ or a STORE and ends in one write at its operand. -/
theorem CycleCase.mem_cases (h : CycleCase s i t) :
    t.mem = s.mem ∨ ∃ n v, (i = .read n ∨ i = .store n) ∧ t.mem = s.mem.write n v := by
  cases h with
  | readStores n v => exact .inr ⟨n, v, .inl rfl, State.advanced_mem⟩
  | store n => exact .inr ⟨n, s.acc, .inr rfl, State.advanced_mem⟩
  | readWaits | readFaults | addFaults | subtractFaults | multiplyFaults | divideFaults | haltCorrected =>
    exact .inl rfl
  | write | load | add | subtract | multiply | divide | branchnegNot | branchzeroNot | haltLegacy | nop =>
    exact .inl State.advanced_mem
  | branch k | branchnegTaken k | branchzeroTaken k => exact .inl (State.branched_mem k)

/-- Settles O37: a write is read back at its own address only. -/
theorem memoryWrittenAtTheOperandOnly : Obligations.MemoryWrittenAtTheOperandOnly := by
  intro i s t h hwf
  obtain hkept | ⟨n, v, hi, hwritten⟩ := (exec_next h).2.mem_cases
  · exact ⟨fun a _ => by rw [hkept], fun _ => hkept⟩
  · refine ⟨fun a ha => ?_, fun hne => ?_⟩
    · rw [hwritten, Memory.read_write hwf, if_neg (ha n hi)]
    · exact absurd hi (not_or.2 (hne n))

/-! ### The channels -/

theorem CycleCase.input_eq (h : CycleCase s i t) :
    t.input = match i with | .read _ => s.input.tail | _ => s.input := by
  cases h with
  | readWaits n empty => rw [empty]; rfl
  | readStores n v rest head => rw [head]; exact State.advanced_input
  | readFaults n v rest head => rw [head]; rfl
  | addFaults | subtractFaults | multiplyFaults | divideFaults | haltCorrected => rfl
  | write | load | store | add | subtract | multiply | divide | branchnegNot | branchzeroNot | haltLegacy | nop =>
    exact State.advanced_input
  | branch k | branchnegTaken k | branchzeroTaken k => exact State.branched_input k

/-- The event that a cycle of the instruction adds to the trace, if any: READ's prompt once it takes an item. -/
def State.cycleEvents (s : State) : Instr → List Event
  | .read _ => if s.input = [] then [] else [.readPrompt]
  | .write n => [.out (s.mem.read n)]
  | .halt _ => [.diag s.fetched.snapshot]
  | _ => []

theorem CycleCase.trace_eq (h : CycleCase s i t) : t.trace = s.trace ++ s.cycleEvents i := by
  cases h with
  | readWaits n empty => simp [State.cycleEvents, empty]
  | readStores n v rest head => simp [State.cycleEvents, head]
  | readFaults n v rest head => simp [State.cycleEvents, head]
  | haltCorrected => rfl
  | write | haltLegacy => exact State.advanced_trace
  | addFaults | subtractFaults | multiplyFaults | divideFaults => exact (List.append_nil _).symm
  | load | store | add | subtract | multiply | divide | branchnegNot | branchzeroNot | nop =>
    exact State.advanced_trace.trans (List.append_nil _).symm
  | branch k | branchnegTaken k | branchzeroTaken k =>
    exact (State.branched_trace k).trans (List.append_nil _).symm

/-- Settles O38: the channels are projections of the trace, to which a cycle adds its instruction's event alone. -/
theorem channelsMovedByTheirInstructionOnly : Obligations.ChannelsMovedByTheirInstructionOnly := by
  intro i s t h
  have hcase : CycleCase s i t := (exec_next h).2
  have hout : t.out = s.out ++ ({ s with trace := s.cycleEvents i } : State).out := by
    simp [State.out, hcase.trace_eq]
  have hdiag : t.diag = s.diag ++ ({ s with trace := s.cycleEvents i } : State).diag := by
    simp [State.diag, hcase.trace_eq]
  refine ⟨?_, ?_, ?_⟩
  · rw [hcase.input_eq]
    cases i <;> rfl
  · rw [hout]
    cases i with
    | read n => by_cases hin : s.input = [] <;> simp [State.cycleEvents, hin, State.out]
    | write n => rfl
    | _ => exact List.append_nil _
  · rw [hdiag]
    cases i with
    | read n => by_cases hin : s.input = [] <;> simp [State.cycleEvents, hin, State.diag]
    | halt n => exact ⟨List.length_append, List.prefix_append _ _⟩
    | _ => exact List.append_nil _

/-! ### The mode and the Loader's address -/

theorem CycleCase.keeps_mode_and_loadAddr (h : CycleCase s i t) :
    t.cycleMode = s.cycleMode ∧ t.loadAddr = s.loadAddr := by
  cases h with
  | readWaits | readFaults | addFaults | subtractFaults | multiplyFaults | divideFaults | haltCorrected =>
    exact ⟨rfl, rfl⟩
  | readStores | write | load | store | add | subtract | multiply | divide | branchnegNot | branchzeroNot | haltLegacy
    | nop => exact ⟨State.advanced_cycleMode, State.advanced_loadAddr⟩
  | branch k | branchnegTaken k | branchzeroTaken k => exact ⟨State.branched_cycleMode k, State.branched_loadAddr k⟩

theorem startSignal_cycleMode (s : State) : (startSignal s).cycleMode = s.cycleMode := by
  unfold startSignal
  split <;> rfl

theorem LoaderCase.keeps_mode (h : LoaderCase s t) : t.cycleMode = s.cycleMode := by
  cases h with
  | waits | stores | rejects => rfl
  | full | ends => exact startSignal_cycleMode _

/-- Settles O39: a turn of the Loader keeps the mode, and a cycle keeps both. -/
theorem cycleModeNeverChanges : Obligations.CycleModeNeverChanges := by
  intro s t h
  obtain ⟨hidle, hcase⟩ | ⟨-, i, -, hcase⟩ | ⟨-, rfl⟩ := step_next h
  · exact ⟨hcase.keeps_mode, fun hrun => by cases hidle.symm.trans hrun⟩
  · obtain ⟨hmode, haddr⟩ := hcase.keeps_mode_and_loadAddr
    exact ⟨hmode, fun _ => haddr⟩
  · exact ⟨rfl, fun _ => rfl⟩

end Sys2Proof.Machine
end

section
/-! PROOFS. READ, the branches, HALT and the table of quotients: the result of each cycle (40_io.md R100;
42_arithmetic.md R126; 43_control_transfer.md R141 to R147). -/

namespace Sys2Proof.Machine

variable {s : State}

/-! ### READ -/

/-- Settles O18: `decode_compose` at opcode 10, and the three cycles of READ by the head of the input. -/
theorem readTakesOneItem : Obligations.ReadTakesOneItem := by
  intro s n hmem hic hn
  have hic' : s.ic < 100 := Nat.lt_succ_of_le hic
  have hn' : n < 100 := Nat.lt_succ_of_le hn
  refine ⟨decode_compose (c := 10) (by decide) hn', exec_read_waits n hic', fun v rest hin hlo hhi => ?_,
    fun v rest hin hout => ?_⟩
  · refine ⟨s.mem.write n v, Memory.wf_write v hmem hn', Memory.read_write hmem n v, ?_⟩
    rw [exec_read_stores hic' hn' hin (inRange_iff.2 ⟨hlo, hhi⟩), State.advanced_eq_claims_onward,
      State.fetched_eq_claims_fetched]
    rfl
  · rw [exec_read_of_not_word n hic' hin (not_inRange_iff.2 hout), State.fetched_eq_claims_fetched]
    rfl

/-! ### The branches -/

/-- A taken branch of the fetched state, as the obligations write it. -/
theorem fetched_branched_eq_claims {k : Nat} (hk : k ≤ 99) :
    s.fetched.branched k = Claims.branchedTo k (Claims.fetched s) := by
  rw [State.branched_eq_claims_branchedTo (Nat.lt_succ_of_le hk), State.fetched_eq_claims_fetched]

/-- A branch not taken, as the obligations write it. -/
theorem fetched_advanced_eq_claims : s.fetched.advanced = Claims.onward (Claims.fetched s) := by
  rw [State.advanced_eq_claims_onward, State.fetched_eq_claims_fetched]

/-- Settles O26: `decode_compose` at opcode 40, and the branch always taken. -/
theorem branchGoesToItsTarget : Obligations.BranchGoesToItsTarget := by
  intro s k hic hk
  refine ⟨decode_compose (c := 40) (by decide) (Nat.lt_succ_of_le hk), ?_⟩
  rw [exec_branch_of_lt (Nat.lt_succ_of_le hic) (Nat.lt_succ_of_le hk), fetched_branched_eq_claims hk]

/-- Settles O27: `decode_compose` at opcode 41, and the branch by the sign of the accumulator. -/
theorem branchnegGoesOnNegative : Obligations.BranchnegGoesOnNegative := by
  intro s k hic hk
  refine ⟨decode_compose (c := 41) (by decide) (Nat.lt_succ_of_le hk), ?_⟩
  rw [exec_branchneg_of_lt (Nat.lt_succ_of_le hic) (Nat.lt_succ_of_le hk), fetched_branched_eq_claims hk,
    fetched_advanced_eq_claims]
  exact ⟨fun hneg => by rw [if_pos hneg], fun hnonneg => by rw [if_neg (Int.not_lt.2 hnonneg)]⟩

/-- Settles O28: `decode_compose` at opcode 42, and the branch on a zero accumulator. -/
theorem branchzeroGoesOnZero : Obligations.BranchzeroGoesOnZero := by
  intro s k hic hk
  refine ⟨decode_compose (c := 42) (by decide) (Nat.lt_succ_of_le hk), ?_⟩
  rw [exec_branchzero_of_lt (Nat.lt_succ_of_le hic) (Nat.lt_succ_of_le hk), fetched_branched_eq_claims hk,
    fetched_advanced_eq_claims]
  exact ⟨fun hzero => by rw [if_pos hzero], fun hne => by rw [if_neg hne]⟩

/-! ### HALT -/

/-- Settles O29: `decode_compose` at opcode 43, and the cycle of HALT in each mode, which emits the snapshot of the
fetched state. -/
theorem haltDeliversASnapshot : Obligations.HaltDeliversASnapshot := by
  intro s n hic snap shown
  have hshown : s.fetched.emit (.diag s.fetched.snapshot) = shown := by rw [State.fetched_eq_claims_fetched]; rfl
  refine ⟨fun hn => decode_compose (c := 43) (by decide) (Nat.lt_succ_of_le hn), ?_, ?_, fun hmode => ?_,
    fun hmode => ?_⟩
  · exact State.diag_emit_diag (s := Claims.fetched s) snap
  · exact State.out_emit_diag (s := Claims.fetched s) snap
  · rw [exec_halt_legacy n (Nat.lt_succ_of_le hic) hmode, hshown, State.advanced_eq_claims_onward]
  · rw [exec_halt_corrected n (Nat.lt_succ_of_le hic) hmode, hshown]
    rfl

/-- In both modes a HALT keeps memory and the accumulator and delivers the snapshot of the fetched state. -/
theorem CycleCase.halt_snapshot {t : State} {n : Nat} (h : CycleCase s (.halt n) t) :
    t.mem = s.mem ∧ t.acc = s.acc ∧ t.diag = s.diag ++ [s.fetched.snapshot] := by
  cases h with
  | haltLegacy =>
    exact ⟨State.advanced_mem, State.advanced_acc, State.advanced_diag.trans (State.diag_emit_diag s.fetched _)⟩
  | haltCorrected => exact ⟨rfl, rfl, State.diag_emit_diag s.fetched _⟩

/-- Settles O30: the step is HALT's cycle, and the fields of its Word are 43 and the operand. -/
theorem haltStepSnapshotContents : Obligations.HaltStepSnapshotContents := by
  intro s n hrun hic hn hcell
  have hic' : s.ic < 100 := Nat.lt_succ_of_le hic
  have hn' : n < 100 := Nat.lt_succ_of_le hn
  have hfetch : fetch s = .ok (.halt n) :=
    fetch_eq_ok_iff.2 ⟨hic', hcell ▸ decode_compose (c := 43) (by decide) hn'⟩
  obtain ⟨-, hopc, hopd⟩ := Laws.EncodedFields.of_recognised (c := 43) (by decide) (operandOk_iff.2 hn')
  have hsnap : s.fetched.snapshot =
      { acc := s.acc, ic := s.ic, ir := 4300 + n, opc := 43, opd := n, mem := s.mem } := by
    rw [State.snapshot, State.fetched_ir, State.fetched_opc, State.fetched_opd, hcell]
    exact congrArg₂ (fun opc opd => Snapshot.mk s.acc s.ic (4300 + n) opc opd s.mem) hopc hopd
  obtain ⟨t, ht⟩ := exec_halt_goes_on n hic'
  obtain ⟨hmem, hacc, hdiag⟩ := (exec_next ht).2.halt_snapshot
  exact ⟨t, (step_of_fetch hrun hfetch).trans ht, hmem, hacc, hsnap ▸ hdiag⟩

/-! ### The table of quotients -/

/-- Every row of R126's table has a divisor other than 0 and Lean's own quotient. -/
theorem divisionTable_row : ∀ e ∈ Claims.divisionTable, e.2.1 ≠ 0 ∧ Int.tdiv e.1 e.2.1 = e.2.2 := by decide

/-- Settles O33: the rows are instances of `divideTruncatesOrFaults`. -/
theorem divisionSignTable : Obligations.DivisionSignTable := by
  refine ⟨fun e he s n hic hn hacc hcell => ?_, fun s n hic hn hzero => ?_⟩
  · obtain ⟨hne, hquotient⟩ := divisionTable_row e he
    obtain ⟨-, hdivides, -⟩ := divideTruncatesOrFaults s n hic hn
    rw [hdivides (hcell ▸ hne), hacc, hcell, hquotient]
  · obtain ⟨-, -, hfaults⟩ := divideTruncatesOrFaults s n hic hn
    exact ⟨_, hfaults hzero, rfl, rfl⟩

end Sys2Proof.Machine
end

section
/-! PROOFS. Cycles one after the other (10_state.md R27, R28, R35; 20_memory.md R63; 43_control_transfer.md R146;
44_no_operation.md R160), and the canonical form of memory (log entry 3). -/

namespace Sys2Proof.Machine

variable {s t : State} {i : Instr}

/-! ### The next cycle -/

/-- Below 99 a completed cycle leaves a running machine at the next address, whose cell it runs. -/
theorem step_advanced (hrun : s.status = .running) (hic : s.ic < 99)
    (hdecode : decode (s.mem.read (s.ic + 1)) = .ok i) : step s.advanced = exec i s.advanced := by
  rw [State.advanced_of_ne hic.ne]
  exact step_of_fetch hrun (fetch_eq_ok_iff.2 ⟨Nat.succ_lt_succ hic, hdecode⟩)

/-- Settles O40: the cell after the STORE's own reads as the accumulator. -/
theorem storedWordIsExecutedNext : Obligations.StoredWordIsExecutedNext := by
  intro s i hmem hrun hic hdecode
  refine ⟨_, exec_store_of_lt (by omega) (by omega), State.advanced_ic, ?_⟩
  refine step_advanced hrun (Nat.lt_succ_of_le hic) ?_
  rw [State.setCell_mem, State.fetched_mem, State.setCell_ic, State.fetched_ic, Memory.read_write hmem, if_pos rfl,
    hdecode]

/-- Settles O41: in strict_legacy mode the cycle of a HALT completes as any other. -/
theorem haltIsFollowedByTheNextWord : Obligations.HaltIsFollowedByTheNextWord := by
  intro s n j hrun hmode hic hhalt hnext
  have hic' : s.ic < 100 := by omega
  refine ⟨_, (step_of_fetch hrun (fetch_eq_ok_iff.2 ⟨hic', hhalt⟩)).trans (exec_halt_legacy n hic' hmode),
    State.advanced_ic, ?_⟩
  exact step_advanced (s := s.fetched.emit _) hrun (Nat.lt_succ_of_le hic) hnext

/-! ### A wait -/

theorem runSteps_of_fixed (h : step s = .next s) : ∀ k, runSteps k s = .next s
  | 0 => rfl
  | k + 1 => (runSteps_next h).trans (runSteps_of_fixed h k)

/-- Settles O43: a waiting READ steps to its own state, and a supplied Word is stored. -/
theorem readWaitsForInput : Obligations.ReadWaitsForInput := by
  intro s n hrun hf hin
  obtain ⟨hic, hdecode⟩ := fetch_eq_ok_iff.1 hf
  refine ⟨runSteps_of_fixed ((step_of_fetch hrun hf).trans (exec_read_waits n hic hin)), ?_⟩
  intro v rest hlo hhi hn
  have hf' : fetch (supplyInput (v :: rest) s) = .ok (.read n) := hf
  have hhead : (supplyInput (v :: rest) s).input = v :: rest := by rw [supplyInput, hin]; rfl
  refine ⟨_, (step_of_fetch (s := supplyInput (v :: rest) s) hrun hf').trans
    (exec_read_stores hic (Nat.lt_succ_of_le hn) hhead (inRange_iff.2 ⟨hlo, hhi⟩)), ?_, ?_⟩
  · exact State.advanced_input
  · exact State.advanced_ic

/-! ### The instruction register before the fetch -/

/-- The fetch writes the instruction register and its fields before a cycle that does not wait looks at the state. -/
theorem exec_ignores_registers (r o d : Int) (hic : s.ic < 100) (hw : ¬ Claims.waiting i s) :
    exec i { s with ir := r, opc := o, opd := d } = exec i s := by
  cases i with
  | read n =>
    obtain ⟨v, rest, hin⟩ := List.exists_cons_of_ne_nil fun hempty => hw ⟨⟨n, rfl⟩, hempty⟩
    by_cases hv : inRange v
    · rw [exec_read_of_word n hic hin hv]
      exact exec_read_of_word (s := { s with ir := r, opc := o, opd := d }) n hic hin hv
    · rw [exec_read_of_not_word n hic hin hv]
      exact exec_read_of_not_word (s := { s with ir := r, opc := o, opd := d }) n hic hin hv
  | _ => rfl

/-- Settles O44: the fetch reads the counter and memory only, and `exec_ignores_registers` is the cycle. -/
theorem oldInstructionRegisterIsUnobservable : Obligations.OldInstructionRegisterIsUnobservable := by
  intro s r o d hrun hwait
  have hfetch : fetch { s with ir := r, opc := o, opd := d } = fetch s := rfl
  cases hf : fetch s with
  | ok i =>
    rw [step_of_fetch hrun hf, step_of_fetch (s := { s with ir := r, opc := o, opd := d }) hrun (hfetch.trans hf)]
    exact exec_ignores_registers r o d (fetch_eq_ok_iff.1 hf).1 (hwait i hf)
  | error f =>
    rw [step_running hrun, step_running (s := { s with ir := r, opc := o, opd := d }) hrun, runCycle, runCycle, hfetch,
      hf]

/-! ### Cells that all hold NOPs -/

theorem step_nop {opc opd : Int} (hrun : s.status = .running) (hic : s.ic < 100)
    (hdecode : decode (s.mem.read s.ic) = .ok (.nop opc opd)) : step s = .next s.fetched.advanced :=
  (step_of_fetch hrun (fetch_eq_ok_iff.2 ⟨hic, hdecode⟩)).trans (exec_nop_of_lt hic)

/-- `k + 1` NOPs up to address 99 carry the counter to 100, by induction on `k`. -/
theorem runSteps_nops : ∀ (k : Nat) {s : State}, s.status = .running → s.ic + (k + 1) = 100 →
    (∀ a, s.ic ≤ a → a ≤ 99 → ∃ opc opd, decode (s.mem.read a) = .ok (.nop opc opd)) →
    ∃ t, runSteps (k + 1) s = .next t ∧ t.status = .stopped ∧ t.ic = 100 ∧ t.acc = s.acc ∧ t.mem = s.mem ∧
      t.input = s.input ∧ t.trace = s.trace
  | 0, s, hrun, hic, hnops => by
    obtain ⟨opc, opd, hdecode⟩ := hnops s.ic le_rfl (by omega)
    refine ⟨_, runSteps_next (step_nop hrun (by omega) hdecode), ?_⟩
    rw [State.advanced_of_eq (by rw [State.fetched_ic]; omega)]
    exact ⟨rfl, rfl, rfl, rfl, rfl, rfl⟩
  | k + 1, s, hrun, hic, hnops => by
    obtain ⟨opc, opd, hdecode⟩ := hnops s.ic le_rfl (by omega)
    rw [runSteps_next (step_nop hrun (by omega) hdecode), State.advanced_of_ne (by rw [State.fetched_ic]; omega)]
    refine runSteps_nops k (s := s.fetched.setIc (s.ic + 1)) hrun ?_ fun a ha => hnops a (Nat.le_of_succ_le ha)
    rw [State.setIc_ic]
    omega

/-- Settles O45: `runSteps_nops` with one NOP for each address from the counter's on. -/
theorem nopsCarryTheCounterTo100 : Obligations.NopsCarryTheCounterTo100 := by
  intro s hrun hic hnops
  obtain ⟨k, hk⟩ : ∃ k, 100 - s.ic = k + 1 := ⟨99 - s.ic, by omega⟩
  rw [hk]
  exact runSteps_nops k hrun (by omega) hnops

/-! ### The canonical form of memory -/

/-- The first entry of a memory in form is found at its own address, and what follows reads as unlisted there. -/
theorem Memory.read_head {lo a : Nat} {v : Int} {m : Memory} (h : Memory.wfFrom lo ((a, v) :: m) = true) :
    Memory.read ((a, v) :: m) a ≠ 0 ∧ ∀ b < a, Memory.read ((a, v) :: m) b = 0 := by
  obtain ⟨-, ha, hv, hm⟩ := (Memory.wfFrom_cons ..).1 h
  refine ⟨by rwa [Memory.read_cons, if_pos rfl], fun b hb => ?_⟩
  exact Memory.read_below ((Memory.wfFrom_cons ..).2 ⟨le_rfl, ha, hv, hm⟩) hb

/-- Memories in form from `lo` that read alike are equal, entry by entry. -/
theorem Memory.eq_of_read_eq : ∀ {lo : Nat} {m m' : Memory}, Memory.wfFrom lo m = true → Memory.wfFrom lo m' = true →
    (∀ a, m.read a = m'.read a) → m = m'
  | _, [], [], _, _, _ => rfl
  | _, [], (b, u) :: rest, _, hm', h => absurd (h b).symm (Memory.read_head hm').1
  | _, (a, v) :: rest, [], hm, _, h => absurd (h a) (Memory.read_head hm).1
  | _, (a, v) :: rest, (b, u) :: rest', hm, hm', h => by
    obtain ⟨hhead, hbelow⟩ := Memory.read_head hm
    obtain ⟨hhead', hbelow'⟩ := Memory.read_head hm'
    have hab : a = b := by
      rcases Nat.lt_trichotomy a b with hlt | heq | hgt
      · exact absurd ((h a).trans (hbelow' a hlt)) hhead
      · exact heq
      · exact absurd ((h b).symm.trans (hbelow b hgt)) hhead'
    subst hab
    obtain ⟨-, -, -, hrest⟩ := (Memory.wfFrom_cons ..).1 hm
    obtain ⟨-, -, -, hrest'⟩ := (Memory.wfFrom_cons ..).1 hm'
    have hvu : v = u := by simpa [Memory.read_cons] using h a
    subst hvu
    have htail : rest = rest' := by
      refine Memory.eq_of_read_eq hrest hrest' fun c => ?_
      by_cases hc : c = a
      · rw [Memory.read_below hrest (by omega), Memory.read_below hrest' (by omega)]
      · simpa [Memory.read_cons, hc] using h c
    rw [htail]

/-- Settles O47: `Memory.eq_of_read_eq` from address 0. -/
theorem canonicalMemoriesThatReadAlikeAreEqual : Obligations.CanonicalMemoriesThatReadAlikeAreEqual := by
  intro m m' hm hm' h
  exact Memory.eq_of_read_eq hm hm' h

end Sys2Proof.Machine
end

section
/-! PROOFS. The host's side: loading (70_reset_and_hazards.md R208 to R213), the load port, the exit code and the reset
values (10_state.md R32, R34, R42). -/

namespace Sys2Proof.Machine

variable {s t : State}

/-! ### Reset, the load port and the exit code -/

/-- Settles O9: each value is a field of `State.resetWith`. -/
theorem resetLeavesTheSpecsValues : Obligations.ResetLeavesTheSpecsValues := by
  intro mode v r
  exact ⟨fun _ => rfl, rfl, rfl, rfl, rfl, rfl, rfl, rfl, fun _ => rfl⟩

/-- Settles O51: the port's own test decides. -/
theorem loadPortOpenOnlyWhileIdle : Obligations.LoadPortOpenOnlyWhileIdle := by
  intro s a w
  have hiff : (s.status = .idle ∧ a < memSize ∧ inRange w) ↔ s.status = .idle ∧ a ≤ 99 ∧ -9999 ≤ w ∧ w ≤ 9999 := by
    rw [memSize_eq, Nat.lt_succ_iff, inRange_iff]
  exact ⟨fun hopen => if_pos (hiff.2 hopen), fun hclosed => if_neg fun h => hclosed (hiff.1 h)⟩

theorem nonZero_toInt_ne_zero (c : NonZero) : c.toInt ≠ 0 := by
  cases c <;> simp only [NonZero.toInt] <;> omega

/-- Settles O52: the code of every fault is the free value of EXIT_FAIL, which is a non-zero integer. -/
theorem exitCodeTellsFailure : Obligations.ExitCodeTellsFailure :=
  ⟨rfl, ⟨Config.exitFail.toInt, nonZero_toInt_ne_zero _, fun _ => rfl⟩, rfl, rfl⟩

/-! ### One turn of the Loader with an item at the head of the input -/

theorem loaderStep_of_head {w : Int} {rest : List Int} (room : s.loadAddr < 100) (hin : s.input = w :: rest) :
    loaderStep s =
      let taken := (s.setInput rest).emit (.asked s.loadAddr)
      if validator w then
        if w = sentinel then .next (startSignal (taken.setCell s.loadAddr 0))
        else .next ((taken.setCell s.loadAddr w).setLoadAddr (s.loadAddr + 1))
      else .next (taken.emit .rejected) := by
  rw [loaderStep, if_pos room, hin]

theorem loaderStep_sentinel {rest : List Int} (room : s.loadAddr < 100) (hin : s.input = sentinel :: rest) :
    loaderStep s = .next (startSignal (((s.setInput rest).emit (.asked s.loadAddr)).setCell s.loadAddr 0)) :=
  loaderStep_of_head room hin

theorem loaderStep_word {w : Int} {rest : List Int} (room : s.loadAddr < 100) (hin : s.input = w :: rest)
    (hw : inRange w) :
    loaderStep s = .next ((((s.setInput rest).emit (.asked s.loadAddr)).setCell s.loadAddr w).setLoadAddr
      (s.loadAddr + 1)) := by
  have hne : w ≠ sentinel := by
    rintro rfl
    exact absurd hw (by decide)
  rw [loaderStep_of_head room hin]
  dsimp only
  rw [if_pos (validator_iff.2 (.inr hw)), if_neg hne]

theorem loaderStep_rejected {w : Int} {rest : List Int} (room : s.loadAddr < 100) (hin : s.input = w :: rest)
    (hne : w ≠ sentinel) (hw : ¬ inRange w) :
    loaderStep s = .next (((s.setInput rest).emit (.asked s.loadAddr)).emit .rejected) := by
  rw [loaderStep_of_head room hin]
  exact if_neg (mt validator_iff.1 (not_or.2 ⟨hne, hw⟩))

theorem loaderStep_full (filled : 100 ≤ s.loadAddr) : loaderStep s = .next (startSignal s) :=
  if_neg (Nat.not_lt.2 filled)

/-- Settles O50: the turn of the Loader that rejects, and the text of its two events. -/
theorem loadTimeRejectionChangesNoEngineState : Obligations.LoadTimeRejectionChangesNoEngineState := by
  refine ⟨fun s w rest hidle haddr hin hne hout => ?_, by decide⟩
  rw [step_idle hidle, loaderStep_rejected (Nat.lt_succ_of_le haddr) hin hne (not_inRange_iff.2 hout)]
  simp [State.emit, State.setInput]

/-! ### Memory that holds a list of Words from address 0 on -/

/-- `m` is in form and reads as the list `ws` from address 0 on, and 0 above. -/
def Memory.holds (m : Memory) (ws : List Int) : Prop := m.wf = true ∧ ∀ a, m.read a = ws.getD a 0

theorem Memory.holds_nil : Memory.holds [] [] := ⟨rfl, fun _ => rfl⟩

/-- Reading after a write to the first address above the list. -/
theorem Memory.holds.read_write {m : Memory} {ws : List Int} (h : m.holds ws) (w : Int) (a : Nat) :
    (m.write ws.length w).read a = (ws ++ [w]).getD a 0 := by
  obtain ⟨hwf, hread⟩ := h
  rw [Memory.read_write hwf, hread]
  rcases Nat.lt_trichotomy a ws.length with hlt | rfl | hgt
  · rw [if_neg hlt.ne, List.getD_append _ _ _ _ hlt]
  · rw [if_pos rfl, List.getD_append_right _ _ _ _ le_rfl, Nat.sub_self]
    rfl
  · rw [if_neg hgt.ne', List.getD_eq_default _ _ hgt.le, List.getD_eq_default]
    rw [List.length_append]
    exact hgt

theorem Memory.holds.append {m : Memory} {ws : List Int} (h : m.holds ws) (w : Int) (hlen : ws.length < 100) :
    (m.write ws.length w).holds (ws ++ [w]) :=
  ⟨Memory.wf_write w h.1 hlen, h.read_write w⟩

/-- The sentinel's 0 leaves what the list says. -/
theorem Memory.holds.write_zero {m : Memory} {ws : List Int} (h : m.holds ws) (hlen : ws.length < 100) :
    (m.write ws.length 0).holds ws := by
  refine ⟨Memory.wf_write 0 h.1 hlen, fun a => ?_⟩
  rw [Memory.read_write h.1, h.2]
  split
  · rename_i ha
    rw [List.getD_eq_default _ _ ha.ge]
  · rfl

/-! ### A machine while it loads -/

/-- The machine `r` after the Loader has filled `m` with the Words `ws`: the items to come are `items`, and the trace is
`tr`. -/
def State.loading (r : State) (m : Memory) (ws items : List Int) (tr : List Event) : State :=
  { r with mem := m, loadAddr := ws.length, input := items, trace := tr }

/-- The same machine once the run has started. -/
def State.loaded (r : State) (m : Memory) (ws items : List Int) (tr : List Event) : State :=
  { r.loading m ws items tr with status := .running }

section
variable {r : State} {m : Memory} {ws rest : List Int} {tr : List Event}

theorem step_loading_word {w : Int} (hidle : r.status = .idle) (hlen : ws.length < 100) (hw : inRange w) :
    step (r.loading m ws (w :: rest) tr) =
      .next (r.loading (m.write ws.length w) (ws ++ [w]) rest (tr ++ [.asked ws.length])) := by
  rw [step_idle (by exact hidle), loaderStep_word (by exact hlen) rfl hw, State.loading, State.loading,
    List.length_append]
  rfl

theorem step_loading_rejected {w : Int} (hidle : r.status = .idle) (hlen : ws.length < 100) (hne : w ≠ sentinel)
    (hw : ¬ inRange w) :
    step (r.loading m ws (w :: rest) tr) = .next (r.loading m ws rest (tr ++ [.asked ws.length, .rejected])) := by
  rw [step_idle (by exact hidle), loaderStep_rejected (by exact hlen) rfl hne hw]
  simp [State.loading, State.emit, State.setInput]

theorem step_loading_sentinel (hidle : r.status = .idle) (hlen : ws.length < 100) :
    step (r.loading m ws (sentinel :: rest) tr) =
      .next (r.loaded (m.write ws.length 0) ws rest (tr ++ [.asked ws.length, .started])) := by
  rw [step_idle (by exact hidle), loaderStep_sentinel (by exact hlen) rfl, startSignal_idle (by exact hidle)]
  simp [State.loading, State.loaded, State.emit, State.setInput, State.setStatus, State.setCell]

theorem step_loading_full (hidle : r.status = .idle) (hlen : ws.length = 100) :
    step (r.loading m ws rest tr) = .next (r.loaded m ws rest (tr ++ [.started])) := by
  rw [step_idle (by exact hidle), loaderStep_full (by exact hlen.ge), startSignal_idle (by exact hidle)]
  rfl

end

theorem accepted_cons_of_word {x : Int} (xs : List Int) (h : inRange x) :
    Claims.accepted (x :: xs) = x :: Claims.accepted xs := List.filter_cons_of_pos (decide_eq_true h)

theorem accepted_cons_of_not_word {x : Int} (xs : List Int) (h : ¬ inRange x) :
    Claims.accepted (x :: xs) = Claims.accepted xs := List.filter_cons_of_neg (by simpa using h)

/-- Loading items with no sentinel among them, one step each, by induction on the items: the accepted Words go behind
those loaded before, as long as address 99 is still free after them. -/
theorem runSteps_loading {r : State} (hidle : r.status = .idle) (rest : List Int) :
    ∀ (xs ws : List Int) {m : Memory} (tr : List Event), (∀ x ∈ xs, x ≠ -99999) → m.holds ws →
      (ws ++ Claims.accepted xs).length ≤ 99 →
      ∃ m' : Memory, m'.holds (ws ++ Claims.accepted xs) ∧
        runSteps xs.length (r.loading m ws (xs ++ rest) tr) =
          .next (r.loading m' (ws ++ Claims.accepted xs) rest (tr ++ Claims.loaderTrace ws.length xs))
  | [], ws, m, tr, _, hm, _ => by
    refine ⟨m, ?_, ?_⟩
    · rwa [show Claims.accepted [] = [] from rfl, List.append_nil]
    · rw [show Claims.accepted [] = [] from rfl, List.append_nil, Claims.loaderTrace, List.append_nil]
      rfl
  | x :: xs, ws, m, tr, hxs, hm, hlen => by
    obtain ⟨hx, hxs⟩ := List.forall_mem_cons.1 hxs
    have hroom : ws.length < 100 := by rw [List.length_append] at hlen; omega
    by_cases hw : inRange x
    · rw [accepted_cons_of_word xs hw, List.append_cons] at hlen ⊢
      obtain ⟨m', hm', hrun⟩ := runSteps_loading hidle rest xs (ws ++ [x]) (tr ++ [.asked ws.length]) hxs
        (hm.append x hroom) hlen
      refine ⟨m', hm', ?_⟩
      rw [List.length_cons, List.cons_append, runSteps_next (step_loading_word hidle hroom hw), hrun,
        Claims.loaderTrace, if_pos hw, List.length_append]
      simp
    · rw [accepted_cons_of_not_word xs hw] at hlen ⊢
      obtain ⟨m', hm', hrun⟩ := runSteps_loading hidle rest xs ws (tr ++ [.asked ws.length, .rejected]) hxs hm hlen
      refine ⟨m', hm', ?_⟩
      rw [List.length_cons, List.cons_append, runSteps_next (step_loading_rejected hidle hroom hx hw), hrun,
        Claims.loaderTrace, if_neg hw]
      simp

/-- Settles O49: `runSteps_loading` from reset, then the sentinel's step, or the hundredth Word's and the start. -/
theorem loaderFillsMemoryFromTheInput : Obligations.LoaderFillsMemoryFromTheInput := by
  intro mode v xs rest hxs
  have hidle : (State.resetWith mode v).status = .idle := rfl
  refine ⟨fun hlen => ?_, fun w hlo hhi hlen => ?_⟩
  · obtain ⟨m, hm, hrun⟩ := runSteps_loading hidle (sentinel :: rest) xs [] [] hxs Memory.holds_nil hlen
    have hroom : (Claims.accepted xs).length < 100 := Nat.lt_succ_of_le hlen
    refine ⟨_, (runSteps_add xs.length 1 hrun).trans (runSteps_next (step_loading_sentinel hidle hroom)), rfl, rfl, rfl,
      rfl, rfl, ⟨rfl, rfl, rfl⟩, (hm.write_zero hroom).2, rfl⟩
  · obtain ⟨m, hm, hrun⟩ := runSteps_loading hidle (w :: rest) xs [] [] hxs Memory.holds_nil hlen.le
    have hroom : (Claims.accepted xs).length < 100 := by omega
    have hword := step_loading_word (m := m) (rest := rest) (tr := Claims.loaderTrace 0 xs) hidle hroom
      (inRange_iff.2 ⟨hlo, hhi⟩)
    have hfull : (Claims.accepted xs ++ [w]).length = 100 := by rw [List.length_append, hlen]; rfl
    refine ⟨_, (runSteps_add xs.length 2 hrun).trans ((runSteps_next hword).trans
      (runSteps_next (step_loading_full hidle hfull))), rfl, rfl, rfl, rfl, rfl, ⟨rfl, rfl, rfl⟩,
      (hm.append w hroom).2, ?_⟩
    rw [State.loaded, hlen]
    exact List.append_assoc _ _ _

end Sys2Proof.Machine
end

section
/-! PROOFS. The host's text: the cells of the dump and the decimal numeral (43_control_transfer.md R149; 40_io.md R103),
and the console of a growing trace (70_reset_and_hazards.md R208, R210; 60_exceptions.md R176). -/

namespace Sys2Proof.Machine

variable {s t : State}

/-! ### The cells of the dump -/

/-- A magnitude below 10000 is made of its four decimal digits. -/
theorem four_digits_compose {n : Nat} (h : n ≤ 9999) :
    n = 1000 * (n / 1000 % 10) + 100 * (n / 100 % 10) + 10 * (n / 10 % 10) + n % 10 := by
  omega

theorem dumpRows_cell (m : Memory) {r c : Nat} (hr : r < 10) (hc : c < 10) :
    ((dumpRows m)[r]?.bind fun row => row[c]?) = some (cellText (m.read (10 * r + c))) := by
  simp [dumpRows, hr, hc]

/-- Settles O53: `pad4` shows the four digits of the magnitude, and the dump's rows are ten cells each. -/
theorem dumpCellIsSignAndFourDigits : Obligations.DumpCellIsSignAndFourDigits := by
  refine ⟨fun v hlo hhi => ?_, by decide, by decide, fun m r c hr hc =>
    dumpRows_cell m (Nat.lt_succ_of_le hr) (Nat.lt_succ_of_le hc)⟩
  have hdigit (n : Nat) : n % 10 ≤ 9 := Nat.le_of_lt_succ (Nat.mod_lt n (by decide))
  exact ⟨_, _, _, _, hdigit _, hdigit _, hdigit _, hdigit _, four_digits_compose (n := v.natAbs) (by omega), rfl⟩

/-! ### The decimal numeral -/

theorem natDigitChar_eq : ∀ d < 10, Nat.digitChar d = Char.ofNat (48 + d) := by decide

/-- `ds` are the decimal digits of `n`, most significant first and without padding. -/
def isNumeral (ds : List Nat) (n : Nat) : Prop :=
  ds ≠ [] ∧ (∀ d ∈ ds, d ≤ 9) ∧ (ds.head? = some 0 → ds = [0]) ∧ ds.foldl (fun n d => 10 * n + d) 0 = n

theorem isNumeral_digit {d : Nat} (h : d < 10) : isNumeral [d] d := by
  refine ⟨List.cons_ne_nil d [], ?_, ?_, by simp⟩
  · simpa using Nat.le_of_lt_succ h
  · simp

/-- A digit after the numeral of a positive number. -/
theorem isNumeral.append {ds : List Nat} {n d : Nat} (h : isNumeral ds n) (hn : n ≠ 0) (hd : d < 10) :
    isNumeral (ds ++ [d]) (10 * n + d) := by
  obtain ⟨hne, hdigits, hhead, hvalue⟩ := h
  refine ⟨by simp, ?_, fun hzero => ?_, by simp [hvalue]⟩
  · intro e he
    obtain he | rfl := List.mem_append.1 he |>.imp_right List.mem_singleton.1
    · exact hdigits e he
    · exact Nat.le_of_lt_succ hd
  · rw [List.head?_append_of_ne_nil ds hne] at hzero
    rw [hhead hzero] at hvalue
    exact absurd hvalue.symm hn

/-- Lean's decimal digits of a number are its numeral, by induction on the number of digits. -/
theorem toDigits_isNumeral (n : Nat) :
    ∃ ds, isNumeral ds n ∧ Nat.toDigits 10 n = ds.map fun d => Char.ofNat (48 + d) := by
  induction n using Nat.strong_induction_on with
  | _ n ih =>
    by_cases h : n < 10
    · exact ⟨[n], isNumeral_digit h, by rw [Nat.toDigits_of_lt_base h, natDigitChar_eq n h]; rfl⟩
    · obtain ⟨ds, hds, htext⟩ := ih (n / 10) (by omega)
      have hlast : n % 10 < 10 := Nat.mod_lt n (by decide)
      refine ⟨ds ++ [n % 10], ?_, ?_⟩
      · have happend := hds.append (by omega) hlast
        rwa [Nat.div_add_mod] at happend
      · rw [Nat.toDigits_of_base_le (by decide) (Nat.le_of_not_lt h), htext, natDigitChar_eq _ hlast, List.map_append]
        rfl

theorem plainDecimal_eq (v : Int) :
    plainDecimal v = (if v < 0 then ['-'] else []) ++ Nat.toDigits 10 v.natAbs := by
  unfold plainDecimal
  split <;> rfl

/-! ### The text of a growing trace -/

theorem traceText_prefix_append (es' : List Event) : ∀ (retrying : Bool) (es : List Event),
    traceText retrying es <+: traceText retrying (es ++ es')
  | _, [] => List.nil_prefix
  | retrying, e :: es => by
    rw [List.cons_append, traceText, traceText, List.prefix_append_right_inj]
    exact traceText_prefix_append es' _ es

/-- A state has shown the text of every trace that its own goes on from. -/
theorem traceText_prefix_console {es : List Event} (h : es <+: t.trace) : traceText false es <+: t.console := by
  obtain ⟨es', htrace⟩ := h
  rw [State.console, List.append_assoc, ← htrace]
  exact (traceText_prefix_append es' false es).trans (List.prefix_append _ _)

/-- The prompt before an item is the text of the event that enters the trace when the item is taken: the Loader's. -/
theorem State.console_idle (hidle : s.status = .idle) (room : s.loadAddr < 100) :
    s.console = traceText false (s.emit (.asked s.loadAddr)).trace := by
  rw [State.console_of_no_fault (by simp [hidle]), State.pendingPrompt_idle hidle room, traceText_emit]

/-- READ's prompt likewise is the text of its event. -/
theorem State.console_read {n : Nat} (hrun : s.status = .running) (hf : fetch s = .ok (.read n)) :
    s.console = traceText false (s.emit .readPrompt).trace := by
  rw [State.console_of_no_fault (by simp [hrun]), State.pendingPrompt_read hrun hf, traceText_emit]
  rfl

/-- Before any other instruction the console is the text of the trace. -/
theorem State.console_other {i : Instr} (hrun : s.status = .running) (hf : fetch s = .ok i)
    (hi : ∀ n, i ≠ .read n) : s.console = traceText false s.trace := by
  rw [State.console_of_no_fault (by simp [hrun]), State.pendingPrompt_other hrun hf hi, List.append_nil]

/-! ### The statements on the console -/

/-- Settles O54: WRITE's one event shows its line, and the numeral is `toDigits_isNumeral` of the magnitude. -/
theorem writeIsShownOnALineOfItsOwn : Obligations.WriteIsShownOnALineOfItsOwn := by
  refine ⟨fun s n hrun hf hn => ?_, fun v => ?_, by decide⟩
  · have hic : s.ic < 100 := (fetch_eq_ok_iff.1 hf).1
    have hstep := (step_of_fetch hrun hf).trans (exec_write_of_lt hic (Nat.lt_succ_of_le hn))
    refine ⟨_, hstep, ?_⟩
    rw [State.console_of_no_fault (State.advanced_status_ne_faulted (by exact hrun)), State.advanced_trace,
      traceText_emit, State.fetched_trace, State.console_other hrun hf (by simp), List.append_assoc]
    rfl
  · obtain ⟨ds, ⟨hne, hdigits, hhead, hvalue⟩, htext⟩ := toDigits_isNumeral v.natAbs
    exact ⟨ds, hne, hdigits, hhead, hvalue, by rw [plainDecimal_eq, htext]⟩

/-- The Loader's prompt shows the two digits of an address. -/
theorem loadPrompt_eq {a : Nat} (h : a ≤ 99) :
    loadPrompt a = [Char.ofNat (48 + a / 10), Char.ofNat (48 + a % 10), ' ', '?', ' '] := by
  have htens : a / 10 % 10 = a / 10 := Nat.mod_eq_of_lt (by omega)
  rw [loadPrompt, pad2, digitChar, digitChar, htens]
  rfl

/-- Settles O55: the pending prompt ends the console until a fault. -/
theorem promptsStandBeforeTheirItems : Obligations.PromptsStandBeforeTheirItems := by
  refine ⟨fun mode v => ?_, fun s hidle haddr hlast => ?_, fun s n hrun hf => ?_⟩
  · rw [State.console_idle rfl (by exact Nat.zero_lt_succ 99)]
    show traceText false [.asked 0] = _
    decide
  · have hretry : s.retrying = false := decide_eq_false hlast
    rw [State.console_of_no_fault (by simp [hidle]), State.pendingPrompt_idle hidle (Nat.lt_succ_of_le haddr), hretry,
      ← loadPrompt_eq haddr]
    exact List.suffix_append _ _
  · rw [State.console_of_no_fault (by simp [hrun]), State.pendingPrompt_read hrun hf]
    exact List.suffix_append _ _

/-- Settles O56: the rejected item's prompt was shown before, and its retry prompt stands for the next one. -/
theorem rejectionIsShownAtOnce : Obligations.RejectionIsShownAtOnce := by
  intro s w rest hidle haddr hin hne hout
  have room : s.loadAddr < 100 := Nat.lt_succ_of_le haddr
  have hstep := (step_idle hidle).trans (loaderStep_rejected room hin hne (not_inRange_iff.2 hout))
  refine ⟨_, hstep, ?_⟩
  rw [State.console_of_no_fault (by simp [hidle]), State.pendingPrompt_idle (by exact hidle) (by exact room),
    traceText_emit, State.console_idle hidle room, State.emit_retrying, State.emit_retrying]
  exact List.append_nil _

/-- A turn of the Loader shows the text of a trace that goes on from what it had shown. -/
theorem LoaderCase.console_grows (h : LoaderCase s t) (hidle : s.status = .idle) : s.console <+: t.console := by
  cases h with
  | waits => exact List.prefix_rfl
  | full filled =>
    rw [State.console_of_no_fault (by simp [hidle]), State.pendingPrompt_full hidle filled, List.append_nil,
      startSignal_idle hidle]
    exact traceText_prefix_console (List.prefix_append _ _)
  | ends room rest =>
    rw [State.console_idle hidle room, startSignal_idle (by exact hidle)]
    exact traceText_prefix_console (List.prefix_append _ _)
  | stores room w rest =>
    rw [State.console_idle hidle room]
    exact traceText_prefix_console List.prefix_rfl
  | rejects room w rest =>
    rw [State.console_idle hidle room]
    exact traceText_prefix_console (List.prefix_append _ _)

/-- A cycle either waits or shows the text of a trace that goes on from what was shown before it. -/
theorem CycleCase.console_grows {i : Instr} (h : CycleCase s i t) (hrun : s.status = .running)
    (hf : fetch s = .ok i) : s.console <+: t.console := by
  by_cases hread : ∃ n, i = .read n
  · obtain ⟨n, rfl⟩ := hread
    rw [State.console_read hrun hf]
    by_cases hin : s.input = []
    · cases h with
      | readWaits => rw [State.console_read hrun hf]
      | readStores _ v rest head => cases hin.symm.trans head
      | readFaults _ v rest head => cases hin.symm.trans head
    · have htrace : t.trace = s.trace ++ [.readPrompt] := by simp [h.trace_eq, State.cycleEvents, hin]
      exact traceText_prefix_console (htrace ▸ List.prefix_rfl)
  · rw [State.console_other hrun hf fun n hn => hread ⟨n, hn⟩]
    exact traceText_prefix_console (h.trace_eq ▸ List.prefix_append _ _)

/-- Settles O57: the Loader's turns and the cycles add to the console, and an ended run stays as it is. -/
theorem consoleOnlyGrows : Obligations.ConsoleOnlyGrows := by
  intro s t h
  obtain ⟨hidle, hcase⟩ | ⟨hrun, i, hf, hcase⟩ | ⟨-, rfl⟩ := step_next h
  · exact hcase.console_grows hidle
  · exact hcase.console_grows hrun hf
  · exact List.prefix_rfl

end Sys2Proof.Machine
end
